-- ==== Sys2Proof/Word.lean ====
section
/-! DEFINITION. The two word types of the hardware (00_scope.md R4, R5). -/

namespace Sys2Proof

/-- A memory byte, or the value of `A`, `X`, `Y` or `SP` (R4: `XLEN` is 8 bits). Its `+` and `-` are `mod 256` (R5). -/
abbrev Byte := BitVec 8

/-- A bus address, or the value of `PC` (R4: `ALEN` is 16 bits). Its `+` and `-` are `mod 65536` (R5, R24). -/
abbrev Addr := BitVec 16

end Sys2Proof
end

