-- ==== Sys2Proof/Syntax.lean ====
section
/-! DEFINITION. The instructions: one constructor per row of spec/opcode_table.json (30_encoding.md R45). -/

namespace Sys2Proof

/-- The twenty instructions, each with its operand as the bytes after the opcode give it: `d8` for format F2,
`nn = {hi, lo}` for format F3 (30_encoding.md R43, R44). -/
inductive Instr where
  /-- `LDA #$nn`, R77. -/
  | ldaImm (d8 : Byte)
  /-- `LDA $nn`, R78. -/
  | ldaZp (d8 : Byte)
  /-- `LDA $nn,X`, R79. -/
  | ldaZpX (d8 : Byte)
  /-- `LDA $nnnn`, R80. -/
  | ldaAbs (nn : Addr)
  /-- `LDA $nnnn,X`, R81. -/
  | ldaAbsX (nn : Addr)
  /-- `LDA $nnnn,Y`, R82. -/
  | ldaAbsY (nn : Addr)
  /-- `LDA ($nn,X)`, R83. -/
  | ldaIndX (d8 : Byte)
  /-- `LDA ($nn),Y`, R84. -/
  | ldaIndY (d8 : Byte)
  /-- `LDX #$nn`, R85. -/
  | ldxImm (d8 : Byte)
  /-- `LDX $nn`, R86. -/
  | ldxZp (d8 : Byte)
  /-- `LDX $nn,Y`, R87. -/
  | ldxZpY (d8 : Byte)
  /-- `LDX $nnnn`, R88. -/
  | ldxAbs (nn : Addr)
  /-- `LDX $nnnn,Y`, R89. -/
  | ldxAbsY (nn : Addr)
  /-- `LDY #$nn`, R90. -/
  | ldyImm (d8 : Byte)
  /-- `LDY $nn`, R91. -/
  | ldyZp (d8 : Byte)
  /-- `LDY $nn,X`, R92. -/
  | ldyZpX (d8 : Byte)
  /-- `LDY $nnnn`, R93. -/
  | ldyAbs (nn : Addr)
  /-- `LDY $nnnn,X`, R94. -/
  | ldyAbsX (nn : Addr)
  /-- `JSR $nnnn`, R95. -/
  | jsr (nn : Addr)
  /-- `NOP`, R99. -/
  | nop
  deriving DecidableEq, Repr

end Sys2Proof
end

