-- ==== Sys2Proof/Decode.lean ====
section
/-! DEFINITION. The dispatch table `OPMAP`, the decoder over any list of bytes, and the encoder (30_encoding.md). -/

namespace Sys2Proof

/-- `lo8(v) = v[7:0]` (00_scope.md R5). -/
def loByte (v : Addr) : Byte := v.setWidth 8

/-- `hi8(v) = v[15:8]` (00_scope.md R5). -/
def hiByte (v : Addr) : Byte := (v >>> 8).setWidth 8

/-- `{h, l} = h * 256 + l` (00_scope.md R5); operand words are assembled so (30_encoding.md R44). -/
def wordOf (hi lo : Byte) : Addr := hi ++ lo

/-- `zext_16(v)` (00_scope.md R5). -/
def zext16 (v : Byte) : Addr := v.setWidth 16

/-- The three general registers (10_state.md R10). -/
inductive Reg where
  | a | x | y
  deriving DecidableEq, Repr

/-- The closed set of nine addressing modes (41_addressing_modes.md R64). -/
inductive Mode where
  | immediate | zeroPage | zeroPageX | zeroPageY | absolute | absoluteX | absoluteY | indirectX | indirectY
  deriving DecidableEq, Repr

/-- What an assigned slot of the dispatch table selects, in R47's words: `Load(r, mode)` with any of the three registers and
any of the nine modes, `Jsr` or `Nop`. -/
inductive Handler where
  | load (r : Reg) (m : Mode)
  | jsr
  | nop
  deriving DecidableEq, Repr

/-- The type of the parameter `OPMAP`: a total function of the opcode byte alone; `none` is `Unassigned` (R47). -/
abbrev OpMap := Byte → Option Handler

/-- R45, the LDA rows. PRESUMED by the spec itself (93 GK1, GK2); log entry 1. -/
def ldaRows : List (Byte × Handler) :=
  [(0xA9, .load .a .immediate), (0xA5, .load .a .zeroPage), (0xB5, .load .a .zeroPageX), (0xAD, .load .a .absolute),
   (0xBD, .load .a .absoluteX), (0xB9, .load .a .absoluteY), (0xA1, .load .a .indirectX), (0xB1, .load .a .indirectY)]

/-- R45, the LDX rows; log entry 1. -/
def ldxRows : List (Byte × Handler) :=
  [(0xA2, .load .x .immediate), (0xA6, .load .x .zeroPage), (0xB6, .load .x .zeroPageY), (0xAE, .load .x .absolute), (0xBE, .load .x .absoluteY)]

/-- R45, the LDY rows; log entry 1. -/
def ldyRows : List (Byte × Handler) :=
  [(0xA0, .load .y .immediate), (0xA4, .load .y .zeroPage), (0xB4, .load .y .zeroPageX), (0xAC, .load .y .absolute), (0xBC, .load .y .absoluteX)]

/-- R45, the rows of JSR and NOP; log entry 1. -/
def otherRows : List (Byte × Handler) := [(0x20, .jsr), (0xEA, .nop)]

/-- The twenty rows of R45. -/
def opRows : List (Byte × Handler) := ldaRows ++ ldxRows ++ ldyRows ++ otherRows

/-- The default `OPMAP` (R45); every byte it has no row for is unassigned (R46). -/
def standardOpmap : OpMap := fun op => opRows.lookup op

/-- The three instruction formats with what the operand bytes make (R43). -/
inductive Form where
  /-- `F1`: the opcode byte alone. -/
  | f1 (i : Instr)
  /-- `F2`: one operand byte `d8`. -/
  | f2 (mk : Byte → Instr)
  /-- `F3`: two operand bytes `lo`, `hi`, assembled as `{hi, lo}`. -/
  | f3 (mk : Addr → Instr)

/-- Why a list of bytes is no instruction of `Instr`. -/
inductive Reject where
  /-- The opcode byte is unassigned (R46). -/
  | unassigned (op : Byte)
  /-- `OPMAP` assigns the byte `Load(r, m)` (R47), a pair that no row of R45 and no constructor of `Instr` has; only a replaced
  `OPMAP` does. The machine runs its handler all the same (`runInstruction`; log entry 19). -/
  | offTable (r : Reg) (m : Mode)
  /-- The list ends before the instruction does. The machine never meets this: it reads all of an instruction's bytes. -/
  | truncated
  deriving DecidableEq, Repr

/-- The format column of R45, and the nine pairs that have no row there. -/
def opForm : Handler → Except Reject Form
  | .load .a .immediate => .ok (.f2 .ldaImm)
  | .load .a .zeroPage => .ok (.f2 .ldaZp)
  | .load .a .zeroPageX => .ok (.f2 .ldaZpX)
  | .load .a .zeroPageY => .error (.offTable .a .zeroPageY)
  | .load .a .absolute => .ok (.f3 .ldaAbs)
  | .load .a .absoluteX => .ok (.f3 .ldaAbsX)
  | .load .a .absoluteY => .ok (.f3 .ldaAbsY)
  | .load .a .indirectX => .ok (.f2 .ldaIndX)
  | .load .a .indirectY => .ok (.f2 .ldaIndY)
  | .load .x .immediate => .ok (.f2 .ldxImm)
  | .load .x .zeroPage => .ok (.f2 .ldxZp)
  | .load .x .zeroPageX => .error (.offTable .x .zeroPageX)
  | .load .x .zeroPageY => .ok (.f2 .ldxZpY)
  | .load .x .absolute => .ok (.f3 .ldxAbs)
  | .load .x .absoluteX => .error (.offTable .x .absoluteX)
  | .load .x .absoluteY => .ok (.f3 .ldxAbsY)
  | .load .x .indirectX => .error (.offTable .x .indirectX)
  | .load .x .indirectY => .error (.offTable .x .indirectY)
  | .load .y .immediate => .ok (.f2 .ldyImm)
  | .load .y .zeroPage => .ok (.f2 .ldyZp)
  | .load .y .zeroPageX => .ok (.f2 .ldyZpX)
  | .load .y .zeroPageY => .error (.offTable .y .zeroPageY)
  | .load .y .absolute => .ok (.f3 .ldyAbs)
  | .load .y .absoluteX => .ok (.f3 .ldyAbsX)
  | .load .y .absoluteY => .error (.offTable .y .absoluteY)
  | .load .y .indirectX => .error (.offTable .y .indirectX)
  | .load .y .indirectY => .error (.offTable .y .indirectY)
  | .jsr => .ok (.f3 .jsr)
  | .nop => .ok (.f1 .nop)

/-- The operand bytes of a format, taken off the front of the list (R43: low byte first). -/
def readOperands : Form → List Byte → Except Reject (Instr × List Byte)
  | .f1 i, rest => .ok (i, rest)
  | .f2 mk, d8 :: rest => .ok (mk d8, rest)
  | .f3 mk, lo :: hi :: rest => .ok (mk (wordOf hi lo), rest)
  | .f2 _, [] => .error .truncated
  | .f3 _, [_] => .error .truncated
  | .f3 _, [] => .error .truncated

/-- Decoding, total on any bytes, under an `OPMAP`: the first instruction and the bytes after it, or why there is none.
It depends on the opcode byte alone for what follows (R47, R48). -/
def decode (m : OpMap) : List Byte → Except Reject (Instr × List Byte)
  | [] => .error .truncated
  | op :: rest =>
    match m op with
    | none => .error (.unassigned op)
    | some h =>
      match opForm h with
      | .error e => .error e
      | .ok f => readOperands f rest

/-- What the dispatch table's slot of an instruction selects: the register and mode columns of R45. -/
def handlerOf : Instr → Handler
  | .ldaImm _ => .load .a .immediate
  | .ldaZp _ => .load .a .zeroPage
  | .ldaZpX _ => .load .a .zeroPageX
  | .ldaAbs _ => .load .a .absolute
  | .ldaAbsX _ => .load .a .absoluteX
  | .ldaAbsY _ => .load .a .absoluteY
  | .ldaIndX _ => .load .a .indirectX
  | .ldaIndY _ => .load .a .indirectY
  | .ldxImm _ => .load .x .immediate
  | .ldxZp _ => .load .x .zeroPage
  | .ldxZpY _ => .load .x .zeroPageY
  | .ldxAbs _ => .load .x .absolute
  | .ldxAbsY _ => .load .x .absoluteY
  | .ldyImm _ => .load .y .immediate
  | .ldyZp _ => .load .y .zeroPage
  | .ldyZpX _ => .load .y .zeroPageX
  | .ldyAbs _ => .load .y .absolute
  | .ldyAbsX _ => .load .y .absoluteX
  | .jsr _ => .jsr
  | .nop => .nop

/-- The opcode byte of an instruction, the opcode column of R45 read from left to right; log entry 1. -/
def opcodeByte : Instr → Byte
  | .ldaImm _ => 0xA9
  | .ldaZp _ => 0xA5
  | .ldaZpX _ => 0xB5
  | .ldaAbs _ => 0xAD
  | .ldaAbsX _ => 0xBD
  | .ldaAbsY _ => 0xB9
  | .ldaIndX _ => 0xA1
  | .ldaIndY _ => 0xB1
  | .ldxImm _ => 0xA2
  | .ldxZp _ => 0xA6
  | .ldxZpY _ => 0xB6
  | .ldxAbs _ => 0xAE
  | .ldxAbsY _ => 0xBE
  | .ldyImm _ => 0xA0
  | .ldyZp _ => 0xA4
  | .ldyZpX _ => 0xB4
  | .ldyAbs _ => 0xAC
  | .ldyAbsX _ => 0xBC
  | .jsr _ => 0x20
  | .nop => 0xEA

/-- The two operand bytes of format F3, low byte first (R43). -/
def wordBytes (nn : Addr) : List Byte := [loByte nn, hiByte nn]

/-- The operand bytes of an instruction. -/
def operandBytes : Instr → List Byte
  | .ldaImm d8 => [d8]
  | .ldaZp d8 => [d8]
  | .ldaZpX d8 => [d8]
  | .ldaAbs nn => wordBytes nn
  | .ldaAbsX nn => wordBytes nn
  | .ldaAbsY nn => wordBytes nn
  | .ldaIndX d8 => [d8]
  | .ldaIndY d8 => [d8]
  | .ldxImm d8 => [d8]
  | .ldxZp d8 => [d8]
  | .ldxZpY d8 => [d8]
  | .ldxAbs nn => wordBytes nn
  | .ldxAbsY nn => wordBytes nn
  | .ldyImm d8 => [d8]
  | .ldyZp d8 => [d8]
  | .ldyZpX d8 => [d8]
  | .ldyAbs nn => wordBytes nn
  | .ldyAbsX nn => wordBytes nn
  | .jsr nn => wordBytes nn
  | .nop => []

/-- The bytes of an instruction under the default `OPMAP`: opcode, then operand bytes, lowest address first (R43). -/
def encode (i : Instr) : List Byte := opcodeByte i :: operandBytes i

/-- The operand bytes a mode fetches (41_addressing_modes.md R64). -/
def modeOperandBytes : Mode → Nat
  | .immediate => 1
  | .zeroPage => 1
  | .zeroPageX => 1
  | .zeroPageY => 1
  | .absolute => 2
  | .absoluteX => 2
  | .absoluteY => 2
  | .indirectX => 1
  | .indirectY => 1

/-- The length in bytes of what a slot selects, opcode byte included (R43, R48). -/
def handlerLength : Handler → Nat
  | .load _ m => 1 + modeOperandBytes m
  | .jsr => 3
  | .nop => 1

/-- The instruction's length in bytes: the length column of R43's last table. -/
def instrLength (i : Instr) : Nat := handlerLength (handlerOf i)

/-- The longest instruction's three bytes of a table word of `nbits` bits: bit 0 is the least significant bit of the
opcode byte, the bits above `nbits` are 0, and byte `k` is bits `8k+7..8k` (R43: "one little-endian bit string"). -/
def tableBytes (nbits w : Nat) : List Byte :=
  let v := w % 2 ^ nbits
  [BitVec.ofNat 8 v, BitVec.ofNat 8 (v / 256), BitVec.ofNat 8 (v / 65536)]

/-- The instruction the decoder reads, under the default `OPMAP`, from a word numbered as spec/opcode_table.json numbers it. -/
def decodeTableWord (nbits w : Nat) : Option Instr :=
  match decode standardOpmap (tableBytes nbits w) with
  | .ok (i, _) => some i
  | .error _ => none

end Sys2Proof
end

