-- ==== Sys2Proof/Machine/State.lean ====
section
/-! DEFINITION. The state of the block (10_state.md R9), the host's pending operations, the reasons a step can stop,
and the state after reset (R22). -/

namespace Sys2Proof.Machine

/-- The flag register: seven independent booleans (R13); there is no packed status byte (R16). -/
structure Flags where
  c : Bool
  z : Bool
  i : Bool
  d : Bool
  b : Bool
  v : Bool
  n : Bool
  deriving DecidableEq, Repr

/-- The name of one flag (R13). -/
inductive FlagName where
  | c | z | i | d | b | v | n
  deriving DecidableEq, Repr

/-- The memory image (R19, R23) as its bytes that are not 0x00, in rising order of address; an unlisted address reads as
0x00. `Memory.wf` says the form holds. -/
abbrev Memory := List Host.Cell

/-- The controller's phase (R7). `cyc` and `req` exist only while running (R9, R17); both are integers (R17, 92 D7). -/
inductive Phase where
  /-- Outside `execute`. -/
  | idle
  /-- Inside `execute(req)`, with `cyc` cycles remaining. -/
  | running (req cyc : Int)
  deriving DecidableEq, Repr

/-- `last_status` (R18); the codes of R104 are OK = 0 and ILLEGAL_OPCODE = 1. -/
inductive Status where
  | ok
  | illegalOpcode
  deriving DecidableEq, Repr

/-- What `reg_read` and `reg_write` can name (R53). -/
inductive RegName where
  | pc | sp | a | x | y
  | flag (f : FlagName)
  deriving DecidableEq, Repr

/-- A register or flag with a value of its width: the argument of `reg_write` and the output of `reg_read` (R53). -/
inductive RegValue where
  | pc (v : Addr)
  | sp (v : Byte)
  | a (v : Byte)
  | x (v : Byte)
  | y (v : Byte)
  | flag (f : FlagName) (b : Bool)
  deriving DecidableEq, Repr

/-- The six host operations (40_controller_and_interfaces.md R53). -/
inductive HostOp where
  | reset
  | execute (budget : Int)
  | memRead (addr : Addr)
  | memWrite (addr : Addr) (v : Byte)
  | regRead (r : RegName)
  | regWrite (rv : RegValue)
  deriving DecidableEq, Repr

/-- What a read operation of the host returns (R53). -/
inductive HostOut where
  | byte (v : Byte)
  | reg (rv : RegValue)
  deriving DecidableEq, Repr

/-- Everything the spec gives the machine (R9), and the model's own last three fields (log entries 6 and 7). -/
structure State where
  /-- `PC` (R12). -/
  pc : Addr
  /-- `SP` (R11). -/
  sp : Byte
  /-- `A` (R10). -/
  a : Byte
  /-- `X` (R10). -/
  x : Byte
  /-- `Y` (R10). -/
  y : Byte
  /-- `F.C` to `F.N` (R13). -/
  flags : Flags
  /-- `M` (R19). -/
  mem : Memory
  /-- Idle, or running with `req` and `cyc` (R7, R17). -/
  phase : Phase
  /-- `last_status` (R18). -/
  lastStatus : Status
  /-- `last_consumed` (R18). -/
  lastConsumed : Int
  /-- `last_illegal_op` (R18). -/
  lastIllegalOp : Byte
  /-- `last_illegal_addr` (R18). -/
  lastIllegalAddr : Addr
  /-- Whether a first `reset` has happened (R119): the model's own field. -/
  resetDone : Bool
  /-- The host's pending operations, oldest first (R53): the model's own field. -/
  host : List HostOp
  /-- What the last `mem_read` or `reg_read` returned (R53): the model's own field. -/
  hostOut : Option HostOut
  deriving DecidableEq, Repr

/-- The machine has no fault: every address is valid, every operation is total, and its one exception, `IllegalOpcode`, is
taken as a next state (R24, R105, R106). So this type has no constructor: nothing raises one, which is safe. -/
inductive Fault where
  deriving DecidableEq, Repr

/-- Why a step is refused. No instruction's meaning raises any of these. -/
inductive Refusal where
  /-- An arm of `exec` without a meaning. No arm raises it. Safe: the model stops where the hardware goes on. -/
  | notModelled (mnemonic : String)
  /-- The host started `execute` before the first `reset`, whose behaviour is undefined (R56, R119, U5): raised by
  `hostStep`. Safe: the model stops. -/
  | executeBeforeReset
  /-- The host started `execute` with a budget the `CYCLE_W`-bit counter cannot serve (R123, U9): raised by `hostStep`.
  Safe: the model stops. -/
  | budgetOutOfRange
  /-- The host used `reg_write` where `HOST_REG_ACCESS = ReadOnly` gives it none (R55): raised by `hostStep`.
  Safe: the model stops. -/
  | registersReadOnly
  deriving DecidableEq, Repr

/-- All seven flags 0 (R22). -/
def Flags.reset : Flags :=
  { c := false, z := false, i := false, d := false, b := false, v := false, n := false }

/-- The state right after `reset` (R22). The values of `lastIllegalOp` and `lastIllegalAddr` are not meaningful there
(R22, U7): DESIGN CHOICE zero, log entry 5. -/
def State.reset : State where
  pc := 0xFFFC
  sp := 0xFF
  a := 0x00
  x := 0x00
  y := 0x00
  flags := Flags.reset
  mem := []
  phase := .idle
  lastStatus := .ok
  lastConsumed := 0
  lastIllegalOp := 0x00
  lastIllegalAddr := 0x0000
  resetDone := true
  host := []
  hostOut := none

end Sys2Proof.Machine
end

