-- ==== Sys2Proof/Machine/Flags.lean ====
section
/-! DEFINITION. The alu_flags_updater (10_state.md R14) and the reading and writing of one flag (R6, R13). -/

namespace Sys2Proof.Machine

/-- `F.Z <- (v == 0)`, `F.N <- v[7]`; the other five flags keep their values (R14, R76). -/
def znFlags (v : Byte) (f : Flags) : Flags := { f with z := v == 0, n := v.getLsbD 7 }

/-- One flag's value. -/
def readFlag (f : Flags) : FlagName → Bool
  | .c => f.c
  | .z => f.z
  | .i => f.i
  | .d => f.d
  | .b => f.b
  | .v => f.v
  | .n => f.n

/-- One flag written; "writing one flag never changes another" (R13). -/
def writeFlag (f : Flags) (b : Bool) : FlagName → Flags
  | .c => { f with c := b }
  | .z => { f with z := b }
  | .i => { f with i := b }
  | .d => { f with d := b }
  | .b => { f with b := b }
  | .v => { f with v := b }
  | .n => { f with n := b }

end Sys2Proof.Machine
end

