-- ==== Sys2Proof/Machine/Ops.lean ====
section
/-! DEFINITION. The named operations over memory, registers and the cycle counter: the primitives of 00_scope.md R6, the
five bus operations of 20_memory.md R28 to R32, and taking the one exception of 60_exceptions.md R104. -/

namespace Sys2Proof.Machine

/-! ## Memory -/

/-- What an address no write has reached reads as: reset zero-fills the image (R25, R26). -/
def unlistedByte : Byte := 0x00

/-- `MemRead(addr, 1)` (R25). Total: every 16-bit value is an address (R24). -/
def memRead : Memory → Addr → Byte
  | [], _ => unlistedByte
  | (k, v) :: m, a => if k = a.toNat then v else memRead m a

/-- A new entry at its place in the rising order of addresses. -/
def insertCell (k : Nat) (v : Byte) : Memory → Memory
  | [] => [(k, v)]
  | (j, w) :: m => if k < j then (k, v) :: (j, w) :: m else (j, w) :: insertCell k v m

/-- `MemWrite(addr, 1, v)` (R25). It keeps the canonical form: writing what an unlisted address reads as drops the entry. -/
def memWrite (m : Memory) (a : Addr) (v : Byte) : Memory :=
  let others := m.filter fun c => c.1 != a.toNat
  if v = unlistedByte then others else insertCell a.toNat v others

/-- The canonical form: addresses strictly rising and inside the image, no entry equal to the unlisted byte. -/
abbrev Memory.wf (m : Memory) : Prop :=
  m.Pairwise (fun c d => c.1 < d.1) ∧ ∀ c ∈ m, c.1 < 65536 ∧ c.2 ≠ unlistedByte

/-- Write one byte of the state's image. -/
def pokeByte (a : Addr) (v : Byte) (s : State) : State := { s with mem := memWrite s.mem a v }

/-! ## Registers -/

/-- `reg[r]` (R6). -/
def readReg (r : Reg) (s : State) : Byte :=
  match r with
  | .a => s.a
  | .x => s.x
  | .y => s.y

/-- `reg[r] <- v` (R6). -/
def writeReg (r : Reg) (v : Byte) (s : State) : State :=
  match r with
  | .a => { s with a := v }
  | .x => { s with x := v }
  | .y => { s with y := v }

/-- `SetZN(v)` (R14). -/
def setZN (v : Byte) (s : State) : State := { s with flags := znFlags v s.flags }

/-- `PC <- target` (R6). -/
def setPc (target : Addr) (s : State) : State := { s with pc := target }

/-- `SP <- v` (R6). -/
def setSp (v : Byte) (s : State) : State := { s with sp := v }

/-! ## The cycle counter -/

/-- The counter less `n`; idle there is no counter (R9, R17). -/
def charge (n : Nat) : Phase → Phase
  | .idle => .idle
  | .running req cyc => .running req (cyc - n)

/-- `Tick(n)` (R6). -/
def tick (n : Nat) (s : State) : State := { s with phase := charge n s.phase }

/-! ## The bus operations. `fetchedByte` and `fetchedWord` are what a fetch does to the state beside returning a value. -/

/-- The effect of `FetchByte()`: `PC` past one byte, 1 cycle (R28). -/
def fetchedByte (s : State) : State := tick 1 (setPc (s.pc + 1) s)

/-- `FetchByte()` (R28). -/
def fetchByte (s : State) : Byte × State := (memRead s.mem s.pc, fetchedByte s)

/-- The effect of `FetchWord()`: `PC` past two bytes, 2 cycles (R29). -/
def fetchedWord (s : State) : State := tick 2 (setPc (s.pc + 2) s)

/-- `FetchWord()` (R29): little-endian, the second address `(PC + 1) mod 65536`. -/
def fetchWord (s : State) : Addr × State :=
  (wordOf (memRead s.mem (s.pc + 1)) (memRead s.mem s.pc), fetchedWord s)

/-- `PeekByte(addr)` (R30). -/
def peekByte (a : Addr) (s : State) : Byte × State := (memRead s.mem a, tick 1 s)

/-- `PeekWord(addr)` (R31): the second byte at `(addr + 1) mod 65536`, with no wrap inside the zero page (log entry 9). -/
def peekWord (a : Addr) (s : State) : Addr × State :=
  (wordOf (memRead s.mem (a + 1)) (memRead s.mem a), tick 2 s)

/-- `WriteWordToStack(value, stack_base)` (R32): low byte first, the second address a 16-bit sum (log entry 9). -/
def writeWordToStack (value base : Addr) (s : State) : State :=
  tick 2 (pokeByte (base + 1) (hiByte value) (pokeByte base (loByte value) s))

/-- The physical address `SP` denotes, `0x0100 + zext_16(SP)` (R11). -/
def stackAddress (sp : Byte) : Addr := 0x0100 + zext16 sp

/-! ## The end of an `execute`, and the one exception -/

/-- The end of an `execute` operation: the two result outputs are set and the controller is idle (R57, R18). -/
def finishExecute (st : Status) (s : State) : State :=
  match s.phase with
  | .idle => s
  | .running req cyc => { s with phase := .idle, lastStatus := st, lastConsumed := req - cyc }

/-- `raise IllegalOpcode(op, opaddr)`: taking the machine's one exception (R101, R104, R106). Nothing is saved, no vector is
read, `PC` is not redirected; the `execute` ends with the diagnostic outputs set. There is no return from it: the next
`execute` goes on at `PC` (R109). -/
def raiseIllegalOpcode (op : Byte) (opaddr : Addr) (s : State) : State :=
  { finishExecute .illegalOpcode s with lastIllegalOp := op, lastIllegalAddr := opaddr }

end Sys2Proof.Machine
end

