-- ==== Sys2Proof/Machine/Operands.lean ====
section
/-! DEFINITION. The addressing-mode resolver (41_addressing_modes.md). Each form is written from the point where the
operand bytes have been fetched, so that the meanings (whose operand the decoder has read) and `resolve` (which fetches it)
share one text. -/

namespace Sys2Proof.Machine

/-- `PageCrossed(base, ea)` (R74): the high bytes differ. -/
def pageCrossed (base ea : Addr) : Bool := hiByte base != hiByte ea

/-- One cycle if and only if the page was crossed (R70, R71, R73). -/
def tickCrossing (base ea : Addr) (s : State) : State := if pageCrossed base ea then tick 1 s else s

/-- The zero-page index sum, `zext_16((d8 + idx) mod 256)` (R67, R68, R72). -/
def zeroPageSum (d8 idx : Byte) : Addr := zext16 (d8 + idx)

/-- The absolute index sum, `(base + zext_16(idx)) mod 65536` (R70, R71, R73). -/
def indexSum (base : Addr) (idx : Byte) : Addr := base + zext16 idx

/-- ZeroPage, after `d8` (R66). -/
def zeroPageOperand (d8 : Byte) (s : State) : Byte × State := peekByte (zext16 d8) s

/-- ZeroPageX and ZeroPageY, after `d8`: one cycle for the index addition, always (R67, R68). -/
def zeroPageIndexedOperand (idx d8 : Byte) (s : State) : Byte × State := peekByte (zeroPageSum d8 idx) (tick 1 s)

/-- Absolute, after the operand word (R69). -/
def absoluteOperand (nn : Addr) (s : State) : Byte × State := peekByte nn s

/-- AbsoluteX and AbsoluteY, after the operand word (R70, R71). -/
def absoluteIndexedOperand (idx : Byte) (base : Addr) (s : State) : Byte × State :=
  peekByte (indexSum base idx) (tickCrossing base (indexSum base idx) s)

/-- IndirectX, after `d8`: the index is added to the pointer's location (R72). -/
def indirectXOperand (d8 : Byte) (s : State) : Byte × State :=
  let p := peekWord (zeroPageSum d8 s.x) (tick 1 s)
  peekByte p.1 p.2

/-- IndirectY, after `d8`: the index is added to the pointer read (R73). -/
def indirectYOperand (d8 : Byte) (s : State) : Byte × State :=
  let p := peekWord (zext16 d8) s
  absoluteIndexedOperand s.y p.1 p.2

/-- `Resolve(mode)` (R64 to R73), fetching its own operand bytes: the pseudocode's form. -/
def resolve (m : Mode) (s : State) : Byte × State :=
  let d := fetchByte s
  let w := fetchWord s
  match m with
  | .immediate => fetchByte s
  | .zeroPage => zeroPageOperand d.1 d.2
  | .zeroPageX => zeroPageIndexedOperand s.x d.1 d.2
  | .zeroPageY => zeroPageIndexedOperand s.y d.1 d.2
  | .absolute => absoluteOperand w.1 w.2
  | .absoluteX => absoluteIndexedOperand s.x w.1 w.2
  | .absoluteY => absoluteIndexedOperand s.y w.1 w.2
  | .indirectX => indirectXOperand d.1 d.2
  | .indirectY => indirectYOperand d.1 d.2

end Sys2Proof.Machine
end

