-- ==== Sys2Proof/Machine/Load.lean ====
section
/-! DEFINITION. The load-register family, LDA, LDX and LDY (42_load.md). Each meaning starts where its rule's pseudocode
does: the opcode fetched and charged, `PC` at the first operand byte (R58). The operand is the one the decoder read from
there, so its fetch is `fetchedByte` or `fetchedWord`. -/

namespace Sys2Proof.Machine

/-- The outcome type of every meaning. -/
abbrev Result := Host.Outcome State Fault Refusal

/-- The load handler after `Resolve`: `reg[r] <- v`, then `SetZN(v)` (R75). -/
def loadReg (r : Reg) (p : Byte × State) : State := setZN p.1 (writeReg r p.1 p.2)

/-- The load handler of R75 for any register and any mode, with its own operand fetch: what the controller runs for a pair
that no row of R45 has. The index register is read before `reg[r]` is written. -/
def loadHandler (r : Reg) (m : Mode) (s : State) : State := loadReg r (resolve m s)

/-- LDA Immediate (R77). -/
def execLdaImm (d8 : Byte) (s : State) : Result := .next (loadReg .a (d8, fetchedByte s))

/-- LDA ZeroPage (R78). -/
def execLdaZp (d8 : Byte) (s : State) : Result := .next (loadReg .a (zeroPageOperand d8 (fetchedByte s)))

/-- LDA ZeroPageX (R79). -/
def execLdaZpX (d8 : Byte) (s : State) : Result := .next (loadReg .a (zeroPageIndexedOperand s.x d8 (fetchedByte s)))

/-- LDA Absolute (R80). -/
def execLdaAbs (nn : Addr) (s : State) : Result := .next (loadReg .a (absoluteOperand nn (fetchedWord s)))

/-- LDA AbsoluteX (R81). -/
def execLdaAbsX (nn : Addr) (s : State) : Result := .next (loadReg .a (absoluteIndexedOperand s.x nn (fetchedWord s)))

/-- LDA AbsoluteY (R82). -/
def execLdaAbsY (nn : Addr) (s : State) : Result := .next (loadReg .a (absoluteIndexedOperand s.y nn (fetchedWord s)))

/-- LDA IndirectX (R83). -/
def execLdaIndX (d8 : Byte) (s : State) : Result := .next (loadReg .a (indirectXOperand d8 (fetchedByte s)))

/-- LDA IndirectY (R84). -/
def execLdaIndY (d8 : Byte) (s : State) : Result := .next (loadReg .a (indirectYOperand d8 (fetchedByte s)))

/-- LDX Immediate (R85). -/
def execLdxImm (d8 : Byte) (s : State) : Result := .next (loadReg .x (d8, fetchedByte s))

/-- LDX ZeroPage (R86). -/
def execLdxZp (d8 : Byte) (s : State) : Result := .next (loadReg .x (zeroPageOperand d8 (fetchedByte s)))

/-- LDX ZeroPageY (R87). -/
def execLdxZpY (d8 : Byte) (s : State) : Result := .next (loadReg .x (zeroPageIndexedOperand s.y d8 (fetchedByte s)))

/-- LDX Absolute (R88). -/
def execLdxAbs (nn : Addr) (s : State) : Result := .next (loadReg .x (absoluteOperand nn (fetchedWord s)))

/-- LDX AbsoluteY (R89). -/
def execLdxAbsY (nn : Addr) (s : State) : Result := .next (loadReg .x (absoluteIndexedOperand s.y nn (fetchedWord s)))

/-- LDY Immediate (R90). -/
def execLdyImm (d8 : Byte) (s : State) : Result := .next (loadReg .y (d8, fetchedByte s))

/-- LDY ZeroPage (R91). -/
def execLdyZp (d8 : Byte) (s : State) : Result := .next (loadReg .y (zeroPageOperand d8 (fetchedByte s)))

/-- LDY ZeroPageX (R92). -/
def execLdyZpX (d8 : Byte) (s : State) : Result := .next (loadReg .y (zeroPageIndexedOperand s.x d8 (fetchedByte s)))

/-- LDY Absolute (R93). -/
def execLdyAbs (nn : Addr) (s : State) : Result := .next (loadReg .y (absoluteOperand nn (fetchedWord s)))

/-- LDY AbsoluteX (R94). -/
def execLdyAbsX (nn : Addr) (s : State) : Result := .next (loadReg .y (absoluteIndexedOperand s.x nn (fetchedWord s)))

end Sys2Proof.Machine
end

