-- ==== Sys2Proof/Machine/Jsr.lean ====
section
/-! DEFINITION. Jump to subroutine (43_jsr.md). -/

namespace Sys2Proof.Machine

/-- JSR after its `FetchWord`, with `PC` at the address after the instruction (R95): the word `PC - 1` is written at the
address `SP` denotes, `SP` moves down by one, `PC` takes the target, and one closing cycle is charged. -/
def jsrTo (target : Addr) (s : State) : State :=
  let pushed := writeWordToStack (s.pc - 1) (stackAddress s.sp) s
  tick 1 (setPc target (setSp (s.sp - 1) pushed))

/-- JSR (R95). -/
def execJsr (nn : Addr) (s : State) : Result := .next (jsrTo nn (fetchedWord s))

end Sys2Proof.Machine
end

