-- ==== Sys2Proof/Config.lean ====
section
/-! DEFINITION. The parameters a model takes (00_scope.md R4), with the spec's defaults. Every definition of the machine
that reads one takes the whole `Config` as an argument, so that statements hold for every value of them. -/

namespace Sys2Proof

/-- `UNASSIGNED_POLICY` (R4, 92 D1). -/
inductive UnassignedPolicy where
  /-- `Signal`: an unassigned opcode raises `IllegalOpcode` (R101). -/
  | signal
  /-- `Nop`: an unassigned opcode is a 2-cycle no-operation (R100). -/
  | nop
  deriving DecidableEq, Repr

/-- `HOST_REG_ACCESS` (R4, 92 D8). -/
inductive HostRegAccess where
  | readWrite
  | readOnly
  deriving DecidableEq, Repr

/-- The open parameters of R4. A field's default is the spec's own (92 D1, D2, D3, D7, D8); log entries 1 to 4. -/
structure Config where
  /-- `OPMAP`. -/
  opmap : OpMap := standardOpmap
  /-- `UNASSIGNED_POLICY`. -/
  unassignedPolicy : UnassignedPolicy := .signal
  /-- `CYCLE_W`: `some w` for a counter of `w` bits, which bounds the budget (R123, U9); `none` for unbounded integers. -/
  cycleW : Option Nat := some 32
  /-- `HOST_REG_ACCESS`. -/
  hostRegAccess : HostRegAccess := .readWrite

/-- Every parameter at the spec's default. -/
def Config.default : Config := {}

end Sys2Proof
end

