-- ==== Sys2Proof/Machine/Nop.lean ====
section
/-! DEFINITION. No-operation, and the handler of the unassigned opcodes under both policies (44_nop_and_unassigned.md). -/

namespace Sys2Proof.Machine

/-- NOP (R99): one cycle beyond the opcode fetch, no other effect. -/
def execNop (s : State) : Result := .next (tick 1 s)

/-- The handler of every unassigned opcode byte, after the opcode fetch (R100, R101). -/
def unassignedOpcode (p : UnassignedPolicy) (op : Byte) (opaddr : Addr) (s : State) : State :=
  match p with
  | .nop => tick 1 s
  | .signal => raiseIllegalOpcode op opaddr s

end Sys2Proof.Machine
end

