-- ==== Sys2Proof/Machine/Dispatch.lean ====
section
/-! DEFINITION. The instruction dispatch: one arm per instruction (R47, R58). -/

namespace Sys2Proof.Machine

/-- The handler of a decoded instruction, run after its opcode fetch (R58). -/
def exec (i : Instr) (s : State) : Host.Outcome State Fault Refusal :=
  match i with
  | .ldaImm d8 => Sys2Proof.Machine.execLdaImm d8 s
  | .ldaZp d8 => Sys2Proof.Machine.execLdaZp d8 s
  | .ldaZpX d8 => Sys2Proof.Machine.execLdaZpX d8 s
  | .ldaAbs nn => Sys2Proof.Machine.execLdaAbs nn s
  | .ldaAbsX nn => Sys2Proof.Machine.execLdaAbsX nn s
  | .ldaAbsY nn => Sys2Proof.Machine.execLdaAbsY nn s
  | .ldaIndX d8 => Sys2Proof.Machine.execLdaIndX d8 s
  | .ldaIndY d8 => Sys2Proof.Machine.execLdaIndY d8 s
  | .ldxImm d8 => Sys2Proof.Machine.execLdxImm d8 s
  | .ldxZp d8 => Sys2Proof.Machine.execLdxZp d8 s
  | .ldxZpY d8 => Sys2Proof.Machine.execLdxZpY d8 s
  | .ldxAbs nn => Sys2Proof.Machine.execLdxAbs nn s
  | .ldxAbsY nn => Sys2Proof.Machine.execLdxAbsY nn s
  | .ldyImm d8 => Sys2Proof.Machine.execLdyImm d8 s
  | .ldyZp d8 => Sys2Proof.Machine.execLdyZp d8 s
  | .ldyZpX d8 => Sys2Proof.Machine.execLdyZpX d8 s
  | .ldyAbs nn => Sys2Proof.Machine.execLdyAbs nn s
  | .ldyAbsX nn => Sys2Proof.Machine.execLdyAbsX nn s
  | .jsr nn => Sys2Proof.Machine.execJsr nn s
  | .nop => Sys2Proof.Machine.execNop s

end Sys2Proof.Machine
end

