-- ==== Sys2Proof/Machine/HostInterface.lean ====
section
/-! DEFINITION. The six operations of the host, performed while the controller is idle (40_controller_and_interfaces.md
R53 to R56, 70_reset_and_hazards.md R116). -/

namespace Sys2Proof.Machine

/-- The `reset` operation (R116): every register, flag, memory byte and result output as R22 says, whatever was there
before. What the host has still to do, and what it has read, are not the block's. -/
def resetOperation (s : State) : State := { State.reset with host := s.host, hostOut := s.hostOut }

/-- Whether a budget is one the counter can serve: at most `2^(CYCLE_W - 1) - 6` (R123, U9). -/
def budgetFits (cycleW : Option Nat) (budget : Int) : Bool :=
  match cycleW with
  | none => true
  | some w => budget + 6 ≤ 2 ^ (w - 1)

/-- `reg_read` (R55). -/
def readRegister (s : State) : RegName → RegValue
  | .pc => .pc s.pc
  | .sp => .sp s.sp
  | .a => .a s.a
  | .x => .x s.x
  | .y => .y s.y
  | .flag f => .flag f (readFlag s.flags f)

/-- `reg_write` (R55): that one register or flag and nothing else; no `SetZN`. -/
def writeRegister (s : State) : RegValue → State
  | .pc v => { s with pc := v }
  | .sp v => { s with sp := v }
  | .a v => { s with a := v }
  | .x v => { s with x := v }
  | .y v => { s with y := v }
  | .flag f b => { s with flags := writeFlag s.flags b f }

/-- One host operation (R53). `execute` starts the run (R57: `req <- budget`, `cyc <- budget`); it is refused before the
first reset (R119) and for a budget out of the counter's range (U9). -/
def hostStep (c : Config) (op : HostOp) (s : State) : Result :=
  match op with
  | .reset => .next (resetOperation s)
  | .execute budget =>
    if s.resetDone = false then .refused .executeBeforeReset
    else if budgetFits c.cycleW budget = false then .refused .budgetOutOfRange
    else .next { s with phase := .running budget budget }
  | .memRead addr => .next { s with hostOut := some (.byte (memRead s.mem addr)) }
  | .memWrite addr v => .next (pokeByte addr v s)
  | .regRead r => .next { s with hostOut := some (.reg (readRegister s r)) }
  | .regWrite rv =>
    match c.hostRegAccess with
    | .readWrite => .next (writeRegister s rv)
    | .readOnly => .refused .registersReadOnly

end Sys2Proof.Machine
end

