-- ==== Sys2Proof/Machine/Controller.lean ====
section
/-! DEFINITION. The controller: the fetch of an instruction, the execution loop between instructions, and whose move it is
(40_controller_and_interfaces.md R56 to R60). -/

namespace Sys2Proof.Machine

/-- The three bytes from `PC` on, the longest instruction's length (R43), each address `mod 65536`. Reading a byte the
instruction turns out not to have is without effect (R36; log entry 8). -/
def instructionBytes (s : State) : List Byte :=
  [memRead s.mem s.pc, memRead s.mem (s.pc + 1), memRead s.mem (s.pc + 2)]

/-- `Step()` (R58): the opcode fetch, then the handler the opcode byte selects: an instruction's, the load handler of a pair
that has no row in R45 (R47, R75), or the unassigned opcodes'. Three bytes truncate no instruction. -/
def runInstruction (c : Config) (s : State) : Result :=
  match decode c.opmap (instructionBytes s) with
  | .ok (i, _) => exec i (fetchedByte s)
  | .error (.offTable r m) => .next (loadHandler r m (fetchedByte s))
  | .error _ => .next (unassignedOpcode c.unassignedPolicy (memRead s.mem s.pc) s.pc (fetchedByte s))

/-- One step of the machine. Running: one whole instruction while `cyc > 0`, else the end of the `execute` (R57). Idle: the
host's next operation, and nothing if it has none (R7, R114). -/
def stepWith (c : Config) (s : State) : Result :=
  match s.phase with
  | .running _ cyc => if 0 < cyc then runInstruction c s else .next (finishExecute .ok s)
  | .idle =>
    match s.host with
    | [] => .next s
    | op :: rest => hostStep c op { s with host := rest }

/-- The bytes `bs` written from `PC` on. -/
def placeBytes (s : State) : List Byte → Addr → State
  | [], _ => s
  | b :: bs, a => placeBytes (pokeByte a b s) bs (a + 1)

/-- The phase in which the next step runs an instruction: a run that still has cycles goes on; otherwise `execute(1)` has
just started (R113; log entry 6). -/
def fetchingPhase : Phase → Phase
  | .running req cyc => if 0 < cyc then .running req cyc else .running 1 1
  | .idle => .running 1 1

end Sys2Proof.Machine
end

