-- ==== Sys2Proof/Machine/Step.lean ====
section
/-! DEFINITION. The step of the machine with the spec's default parameters (00_scope.md R4). -/

namespace Sys2Proof.Machine

/-- One step, every parameter at its default. -/
def step (s : State) : Host.Outcome State Fault Refusal := stepWith Config.default s

/-- `s` with the instruction of a table word stored where the next step fetches, and the controller running so that it does
fetch (log entry 6). -/
def State.withFetchWord (s : State) (nbits w : Nat) : State :=
  { placeBytes s (tableBytes nbits w) s.pc with phase := fetchingPhase s.phase }

end Sys2Proof.Machine
end

