-- ==== Sys2Proof/Machine/Pseudocode.lean ====
section
/-! DEFINITION. The spec's own `Step()` and whole `execute` in the spec's own shape (40_controller_and_interfaces.md R57,
R58): handlers that fetch their operand bytes themselves instead of taking a decoded instruction. The machine does not use
this file; statements compare the machine with it. -/

namespace Sys2Proof.Machine

/-- JSR's pseudocode (R95). -/
def jsrHandler (s : State) : State :=
  let w := fetchWord s
  jsrTo w.1 w.2

/-- The `case OPMAP(op) of` of R58, after the opcode fetch. -/
def specHandler (c : Config) (op : Byte) (opaddr : Addr) (s : State) : State :=
  match c.opmap op with
  | some (.load r m) => loadHandler r m s
  | some .jsr => jsrHandler s
  | some .nop => tick 1 s
  | none => unassignedOpcode c.unassignedPolicy op opaddr s

/-- `Step()` (R58). -/
def specStep (c : Config) (s : State) : State :=
  let f := fetchByte s
  specHandler c f.1 s.pc f.2

/-- The loop of `execute` (R57) from the point where its budget is latched, at most `fuel` steps; `none` if the fuel runs
out. `Step()` leaves the controller running, or idle where it raised `IllegalOpcode`, which leaves the loop. -/
def specLoop (c : Config) : Nat → State → Option State
  | 0, _ => none
  | fuel + 1, s =>
    match s.phase with
    | .idle => some s
    | .running _ cyc => if 0 < cyc then specLoop c fuel (specStep c s) else some (finishExecute .ok s)

end Sys2Proof.Machine
end

