-- ==== Sys2Proof/WellFormed.lean ====
section
/-! DEFINITION. Which instructions and which host operations are well formed. -/

namespace Sys2Proof

/-- Every instruction is well formed. A constructor holds exactly the operand bytes its format has, and "every value of `d8`,
`lo` and `hi` is legal: no operand value is reserved" (30_encoding.md R49); the pairs of register and mode without a row in
R45 have no constructor (log entry 19). So there is no check an instruction could fail. -/
def Instr.wf : Instr → Bool
  | .ldaImm _ => true
  | .ldaZp _ => true
  | .ldaZpX _ => true
  | .ldaAbs _ => true
  | .ldaAbsX _ => true
  | .ldaAbsY _ => true
  | .ldaIndX _ => true
  | .ldaIndY _ => true
  | .ldxImm _ => true
  | .ldxZp _ => true
  | .ldxZpY _ => true
  | .ldxAbs _ => true
  | .ldxAbsY _ => true
  | .ldyImm _ => true
  | .ldyZp _ => true
  | .ldyZpX _ => true
  | .ldyAbs _ => true
  | .ldyAbsX _ => true
  | .jsr _ => true
  | .nop => true

/-- The host operations a host may ask for: a budget in the counter's range (R123, U9), and `reg_write` only where
`HOST_REG_ACCESS` gives it (R55). -/
def Machine.HostOp.wf (c : Config) : Machine.HostOp → Bool
  | .execute budget => Machine.budgetFits c.cycleW budget
  | .regWrite _ => c.hostRegAccess == .readWrite
  | .reset => true
  | .memRead _ => true
  | .memWrite _ _ => true
  | .regRead _ => true

end Sys2Proof
end

