-- ==== Sys2Proof/Safety.lean ====
section
/-! DEFINITION. The terms claims are stated in: several steps, the invariant, a safe run, and the tables of the spec that a
claim compares the machine with. -/

namespace Sys2Proof.Machine

/-- `k` steps, stopping at a refusal. -/
def stepsWith (c : Config) : Nat → State → Result
  | 0, s => .next s
  | k + 1, s =>
    match stepWith c s with
    | .next t => stepsWith c k t
    | .fault r => .fault r
    | .refused r => .refused r

/-- The counter of a run: never above the budget, and below -5 only where the budget itself was (10_state.md R17). -/
def Phase.bounded : Phase → Prop
  | .idle => True
  | .running req cyc => cyc ≤ req ∧ (cyc = req ∨ -5 ≤ cyc)

/-- The invariant every step keeps: the memory's canonical form, the counter's bounds (R17), a run only after a reset (R119),
and a consumption that is never negative (R60, R61). -/
structure State.Inv (s : State) : Prop where
  memory : Memory.wf s.mem
  counter : Phase.bounded s.phase
  reset : s.phase ≠ .idle → s.resetDone = true
  consumed : 0 ≤ s.lastConsumed

/-- The next step runs an instruction or meets an unassigned opcode: the controller runs with cycles left (R57). -/
def State.fetches (s : State) : Prop := ∃ req cyc, s.phase = .running req cyc ∧ 0 < cyc

/-- The next step fetches an unassigned opcode byte (R46). -/
def fetchesUnassigned (c : Config) (s : State) : Prop := s.fetches ∧ c.opmap (memRead s.mem s.pc) = none

/-- A run of `n` steps is safe: no step is refused and none fetches an unassigned opcode. U1: "a proof about a program should
treat that outcome as a fault". -/
def SafeFor (c : Config) : Nat → State → Prop
  | 0, _ => True
  | n + 1, s => ¬ fetchesUnassigned c s ∧ ∃ t, stepWith c s = .next t ∧ SafeFor c n t

/-- The next step runs the handler `h` of the dispatch table (whatever byte `OPMAP` assigns it to), with `cyc` of `req`
cycles left. -/
structure AtSlot (c : Config) (s : State) (req cyc : Int) (h : Handler) : Prop where
  running : s.phase = .running req cyc
  positive : 0 < cyc
  assigned : c.opmap (memRead s.mem s.pc) = some h

/-- The first operand byte of the instruction at `PC`: `d8`, or `lo` (30_encoding.md R43). -/
def operandByte (s : State) : Byte := memRead s.mem (s.pc + 1)

/-- The operand word `{hi, lo}` of the instruction at `PC` (R43, R44). -/
def operandWord (s : State) : Addr := wordOf (memRead s.mem (s.pc + 2)) (memRead s.mem (s.pc + 1))

/-- The pointer stored at `a`, low byte first, its high byte at `(a + 1) mod 65536` (20_memory.md R31). -/
def pointerAt (s : State) (a : Addr) : Addr := wordOf (memRead s.mem (a + 1)) (memRead s.mem a)

/-- The flags after a load of `v` (42_load.md R76), written out flag by flag. -/
def loadedFlags (v : Byte) (f : Flags) : Flags :=
  { c := f.c, z := decide (v = 0x00), i := f.i, d := f.d, b := f.b, v := f.v, n := decide (128 ≤ v.toNat) }

/-- One more cycle on a page crossing, none else (41_addressing_modes.md R74). -/
def crossingCycles (base ea : Addr) : Nat := if base.toNat / 256 = ea.toNat / 256 then 0 else 1

/-- The totals of the cycle table (70_reset_and_hazards.md R127), opcode fetch included. -/
def tableCycles (s : State) : Instr → Nat
  | .ldaImm _ => 2
  | .ldaZp _ => 3
  | .ldaZpX _ => 4
  | .ldaAbs _ => 4
  | .ldaAbsX nn => 4 + crossingCycles nn (nn + zext16 s.x)
  | .ldaAbsY nn => 4 + crossingCycles nn (nn + zext16 s.y)
  | .ldaIndX _ => 6
  | .ldaIndY d8 => 5 + crossingCycles (pointerAt s (zext16 d8)) (pointerAt s (zext16 d8) + zext16 s.y)
  | .ldxImm _ => 2
  | .ldxZp _ => 3
  | .ldxZpY _ => 4
  | .ldxAbs _ => 4
  | .ldxAbsY nn => 4 + crossingCycles nn (nn + zext16 s.y)
  | .ldyImm _ => 2
  | .ldyZp _ => 3
  | .ldyZpX _ => 4
  | .ldyAbs _ => 4
  | .ldyAbsX nn => 4 + crossingCycles nn (nn + zext16 s.x)
  | .jsr _ => 6
  | .nop => 2

/-- The totals of the addressing modes for the instruction at `PC` (41_addressing_modes.md R64), opcode fetch included. -/
def modeCycles (s : State) : Mode → Nat
  | .immediate => 2
  | .zeroPage => 3
  | .zeroPageX => 4
  | .zeroPageY => 4
  | .absolute => 4
  | .absoluteX => 4 + crossingCycles (operandWord s) (operandWord s + zext16 s.x)
  | .absoluteY => 4 + crossingCycles (operandWord s) (operandWord s + zext16 s.y)
  | .indirectX => 6
  | .indirectY =>
    5 + crossingCycles (pointerAt s (zext16 (operandByte s))) (pointerAt s (zext16 (operandByte s)) + zext16 s.y)

/-- The destination register of a load; JSR and NOP have none (30_encoding.md R45). -/
def destination : Instr → Option Reg
  | .ldaImm _ => some .a
  | .ldaZp _ => some .a
  | .ldaZpX _ => some .a
  | .ldaAbs _ => some .a
  | .ldaAbsX _ => some .a
  | .ldaAbsY _ => some .a
  | .ldaIndX _ => some .a
  | .ldaIndY _ => some .a
  | .ldxImm _ => some .x
  | .ldxZp _ => some .x
  | .ldxZpY _ => some .x
  | .ldxAbs _ => some .x
  | .ldxAbsY _ => some .x
  | .ldyImm _ => some .y
  | .ldyZp _ => some .y
  | .ldyZpX _ => some .y
  | .ldyAbs _ => some .y
  | .ldyAbsX _ => some .y
  | .jsr _ => none
  | .nop => none

end Sys2Proof.Machine
end

