-- ==== Sys2Proof/Certificates/Slice0/Obligations.lean ====
section
/-! DEFINITION. The statements for the provers. A statement holds for every value of the parameters of 00_scope.md R4 (the
`Config`) unless it names one. Where a clause rests on a choice of the spec's own (a decision D<n> of 92_eei_decisions.md) or
of the model's log, the docstring says so. One such choice stands behind every clause that keeps the four outputs while the
controller runs: R18 calls them valid only between runs, and log entry 5 has them hold their old values. -/

open Sys2Proof Sys2Proof.Machine

/-! ## Reset and the host -/

/-- The table of values after `reset` (10_state.md section 7, R22). The values of `last_status` and `last_consumed` are the
spec's own choice, D11; the two diagnostic outputs, not meaningful there, are left out. -/
def Obligations.ResetLeavesTheTableOfValues : Prop :=
  State.reset.pc = 0xFFFC ∧ State.reset.sp = 0xFF ∧ State.reset.a = 0x00 ∧ State.reset.x = 0x00 ∧ State.reset.y = 0x00 ∧
    State.reset.flags = { c := false, z := false, i := false, d := false, b := false, v := false, n := false } ∧
    (∀ addr, memRead State.reset.mem addr = 0x00) ∧ State.reset.phase = .idle ∧
    State.reset.lastStatus = .ok ∧ State.reset.lastConsumed = 0

/-- The host's `reset` reaches the state after reset whatever was there before, and twice is once (70_reset_and_hazards.md
section 1, R116, R117; indivisible by D16). What it leaves in the two diagnostic outputs is the model's choice, log entry 5. -/
def Obligations.ResetOperationReachesTheResetState : Prop :=
  (∀ c s rest, s.phase = .idle → s.host = .reset :: rest →
    stepWith c s = .next { State.reset with host := rest, hostOut := s.hostOut }) ∧
  (∀ c s rest, s.phase = .idle → s.host = .reset :: .reset :: rest →
    ∃ t, stepWith c s = .next t ∧ stepWith c t = .next { t with host := rest })

/-- Starting an `execute`: refused before the first reset (D10) and for a budget the counter cannot serve (U9); otherwise
`req` and `cyc` take the budget and nothing else changes (40_controller_and_interfaces.md section 2, R57). -/
def Obligations.StartOfExecute : Prop :=
  ∀ (c : Config) (s : State) (budget : Int) (rest : List HostOp), s.phase = .idle → s.host = .execute budget :: rest →
    (s.resetDone = false → stepWith c s = .refused .executeBeforeReset) ∧
    (s.resetDone = true → (∃ w, c.cycleW = some w ∧ 2 ^ (w - 1) - 6 < budget) → stepWith c s = .refused .budgetOutOfRange) ∧
    (s.resetDone = true → (c.cycleW = none ∨ ∃ w, c.cycleW = some w ∧ budget ≤ 2 ^ (w - 1) - 6) →
      stepWith c s = .next { s with host := rest, phase := .running budget budget })

/-- While idle the host reads and writes any byte, charging no cycle and touching no register; while running it has no
access; and `reset` clears what was loaded before it (20_memory.md section 6, R42). That its pending operations stay pending
while the controller runs is the spec's own choice, D12, and log entry 12. -/
def Obligations.HostMemoryAccess : Prop :=
  (∀ c s addr rest, s.phase = .idle → s.host = .memRead addr :: rest →
    stepWith c s = .next { s with host := rest, hostOut := some (.byte (memRead s.mem addr)) }) ∧
  (∀ c s addr v rest, s.phase = .idle → s.host = .memWrite addr v :: rest →
    ∃ t, stepWith c s = .next t ∧ memRead t.mem addr = v ∧ (∀ b, b ≠ addr → memRead t.mem b = memRead s.mem b) ∧
      { t with mem := s.mem } = { s with host := rest }) ∧
  (∀ c s req cyc, s.phase = .running req cyc → ∃ t, stepWith c s = .next t ∧ t.host = s.host ∧ t.hostOut = s.hostOut) ∧
  (∀ c s rest, s.phase = .idle → s.host = .reset :: rest →
    ∃ t, stepWith c s = .next t ∧ ∀ a, memRead t.mem a = 0x00)

/-- `reg_read` and `reg_write` (40_controller_and_interfaces.md section 1, R55): a write changes that one register or flag and
nothing else; with `HOST_REG_ACCESS = ReadOnly` there is no `reg_write`. Writing is the spec's own choice, D8. -/
def Obligations.HostRegisterAccess : Prop :=
  (∀ c s rv rest, s.phase = .idle → s.host = .regWrite rv :: rest → c.hostRegAccess = .readOnly →
    stepWith c s = .refused .registersReadOnly) ∧
  (∀ c s rv rest, s.phase = .idle → s.host = .regWrite rv :: rest → c.hostRegAccess = .readWrite →
    ∃ t, stepWith c s = .next t ∧
      match rv with
      | .pc v => t = { s with host := rest, pc := v }
      | .sp v => t = { s with host := rest, sp := v }
      | .a v => t = { s with host := rest, a := v }
      | .x v => t = { s with host := rest, x := v }
      | .y v => t = { s with host := rest, y := v }
      | .flag f b => readFlag t.flags f = b ∧ (∀ g, g ≠ f → readFlag t.flags g = readFlag s.flags g) ∧
          { t with flags := s.flags } = { s with host := rest }) ∧
  (∀ c s r rest, s.phase = .idle → s.host = .regRead r :: rest →
    ∃ rv, stepWith c s = .next { s with host := rest, hostOut := some (.reg rv) } ∧
      match r with
      | .pc => rv = .pc s.pc
      | .sp => rv = .sp s.sp
      | .a => rv = .a s.a
      | .x => rv = .x s.x
      | .y => rv = .y s.y
      | .flag f => rv = .flag f (readFlag s.flags f))

/-- The host has no move while the controller is running (40_controller_and_interfaces.md section 1, R56; D12): what it has
pending neither changes nor has any influence on the step. -/
def Obligations.HostHasNoMoveWhileRunning : Prop :=
  ∀ (c : Config) (s : State) (req cyc : Int) (pending : List HostOp), s.phase = .running req cyc →
    ∃ t, stepWith c s = .next t ∧ t.host = s.host ∧
      stepWith c { s with host := pending } = .next { t with host := pending }

/-- Idle with no pending operation nothing changes (60_exceptions.md section 4, R114). -/
def Obligations.IdleWithoutOperationChangesNothing : Prop :=
  ∀ (c : Config) (s : State), s.phase = .idle → s.host = [] → stepWith c s = .next s

/-! ## The execution loop -/

/-- A step with cycles left runs the handler of the instruction the bytes at `PC` decode to, after the opcode fetch, which
moves `PC` by one and charges one cycle; `step` is that with every parameter at its default. -/
def Obligations.StepRunsTheDecodedInstruction : Prop :=
  (∀ (c : Config) (s : State) (i : Instr) (rest : List Byte), s.fetches →
    decode c.opmap [memRead s.mem s.pc, memRead s.mem (s.pc + 1), memRead s.mem (s.pc + 2)] = .ok (i, rest) →
    stepWith c s = exec i { s with pc := s.pc + 1, phase := charge 1 s.phase }) ∧
  (∀ s, step s = stepWith Config.default s)

/-- The loop's exit (40_controller_and_interfaces.md section 2, R57): with `cyc <= 0` no opcode is fetched; the result is
(`OK`, `req - cyc`) and the controller is idle. The status output is the spec's own choice, D11. That the two diagnostic outputs
then keep their values is the model's choice, log entry 5: U7 leaves them open. -/
def Obligations.LoopEndsWhenBudgetIsSpent : Prop :=
  ∀ (c : Config) (s : State) (req cyc : Int), s.phase = .running req cyc → cyc ≤ 0 →
    stepWith c s = .next { s with phase := .idle, lastStatus := .ok, lastConsumed := req - cyc }

/-- A zero or negative budget performs no state change but the result (`OK`, 0) (40_controller_and_interfaces.md section 2,
R60; the negative case is the spec's inference from R57). That the two diagnostic outputs keep their values at this OK is the
model's choice, log entry 5, and the two steps are log entry 15's. -/
def Obligations.SpentBudgetRunsNothing : Prop :=
  ∀ (c : Config) (s : State) (budget : Int) (rest : List HostOp), s.phase = .idle → s.resetDone = true →
    s.host = .execute budget :: rest → budgetFits c.cycleW budget = true → budget ≤ 0 →
    ∃ t, stepWith c s = .next t ∧
      stepWith c t = .next { s with host := rest, lastStatus := .ok, lastConsumed := 0 }

/-- `execute(1)` performs exactly one step of the spec's `Step()` and is then over (60_exceptions.md section 4, R113, marked
there as the spec's inference). The start and the exit as steps are log entry 15's; that the two diagnostic outputs keep their
values at the exit with OK is the model's choice, log entry 5. -/
def Obligations.BudgetOfOneRunsOneInstruction : Prop :=
  ∀ (c : Config) (s : State) (rest : List HostOp), s.phase = .idle → s.resetDone = true →
    s.host = .execute 1 :: rest → budgetFits c.cycleW 1 = true →
    ∃ u t, stepWith c s = .next u ∧ u = { s with host := rest, phase := .running 1 1 } ∧
      stepWith c u = .next t ∧ t = specStep c u ∧
      (t.phase = .idle ∨ ∃ cyc, cyc ≤ 0 ∧ t.phase = .running 1 cyc ∧
        stepWith c t = .next { t with phase := .idle, lastStatus := .ok, lastConsumed := 1 - cyc })

/-- No instruction reads the counter (40_controller_and_interfaces.md section 2, R59): an assigned opcode run on two budgets
gives one state but for the two counters, and charges both the same 2 to 6 cycles. -/
def Obligations.InstructionsDoNotReadTheCounter : Prop :=
  ∀ (c : Config) (s : State) (h : Handler) (req₁ cyc₁ req₂ cyc₂ : Int), 0 < cyc₁ → 0 < cyc₂ →
    c.opmap (memRead s.mem s.pc) = some h →
    ∃ (t : State) (n : Nat), 2 ≤ n ∧ n ≤ 6 ∧
      stepWith c { s with phase := .running req₁ cyc₁ } = .next { t with phase := .running req₁ (cyc₁ - n) } ∧
      stepWith c { s with phase := .running req₂ cyc₂ } = .next { t with phase := .running req₂ (cyc₂ - n) }

/-- The overshoot of an `execute` that ends on its budget is at most 5 (40_controller_and_interfaces.md section 2, R61). The
invariant rules out counters no run reaches. -/
def Obligations.ConsumptionWithinFiveOfTheBudget : Prop :=
  ∀ (c : Config) (s : State) (req cyc : Int), s.Inv → s.phase = .running req cyc → cyc ≤ 0 → 1 ≤ req →
    ∃ t, stepWith c s = .next t ∧ t.lastStatus = .ok ∧ req ≤ t.lastConsumed ∧ t.lastConsumed ≤ req + 5

/-- Every `execute` returns: from any running state the controller is idle after at most `ceil(cyc / 2)` instructions and the
loop's exit, without a fault or a refusal (40_controller_and_interfaces.md section 2, R62). The bound is the spec's inference;
that the exit counts as one step is log entry 15's. -/
def Obligations.ExecuteAlwaysReturns : Prop :=
  ∀ (c : Config) (s : State) (req cyc : Int), s.phase = .running req cyc →
    ∃ k t, k ≤ (cyc.toNat + 1) / 2 + 1 ∧ stepsWith c k s = .next t ∧ t.phase = .idle ∧ t.host = s.host

/-- The machine's step, which decodes an instruction with its operand, is the spec's `Step()`, whose handlers fetch their own
operand bytes (40_controller_and_interfaces.md section 2, R58). -/
def Obligations.StepFollowsThePseudocode : Prop :=
  ∀ (c : Config) (s : State), s.fetches → stepWith c s = .next (specStep c s)

/-- The machine's steps are the spec's `while` loop: what the loop of R57 ends in, the machine reaches (R57, R58). -/
def Obligations.StepsFollowTheExecuteLoop : Prop :=
  ∀ (c : Config) (fuel : Nat) (s t : State), specLoop c fuel s = some t →
    t.phase = .idle ∧ ∃ k, k ≤ fuel ∧ stepsWith c k s = .next t

/-- Every step keeps the invariant: the memory's canonical form, the counter's bounds, no run before a reset, no negative
consumption. The canonical form is the model's; the counter's bound is 10_state.md R17's. -/
def Obligations.StepKeepsTheInvariant : Prop :=
  ∀ (c : Config) (s t : State), s.Inv → stepWith c s = .next t → t.Inv

/-- The invariant holds after reset. -/
def Obligations.ResetMeetsTheInvariant : Prop := State.reset.Inv

/-- The cycle table (70_reset_and_hazards.md section 4, R127; 41_addressing_modes.md section 1, R64; the totals the source does
not state are the spec's inference, JSR's is D4): an instruction charges its total, opcode fetch included, and a load of any
register charges its mode's. -/
def Obligations.StepChargesTheTableTotal : Prop :=
  (∀ (c : Config) (s : State) (req cyc : Int) (i : Instr) (rest : List Byte), s.phase = .running req cyc → 0 < cyc →
    decode c.opmap (instructionBytes s) = .ok (i, rest) →
    ∃ t, stepWith c s = .next t ∧ t.phase = .running req (cyc - tableCycles s i)) ∧
  (∀ (c : Config) (s : State) (req cyc : Int) (r : Reg) (m : Mode), AtSlot c s req cyc (.load r m) →
    ∃ t, stepWith c s = .next t ∧ t.phase = .running req (cyc - modeCycles s m))

/-! ## The addressing modes, as whole instructions from the opcode fetch on -/

/-- R65, Immediate, in a load of any register: the operand is the next byte; 2 cycles. -/
def Obligations.ImmediateLoads : Prop :=
  ∀ (c : Config) (s : State) (req cyc : Int) (r : Reg), AtSlot c s req cyc (.load r .immediate) →
    stepWith c s = .next { writeReg r (operandByte s) s with
      flags := loadedFlags (operandByte s) s.flags, pc := s.pc + 2, phase := .running req (cyc - 2) }

/-- R66, ZeroPage, in a load of any register: the byte at the one-byte address; 3 cycles. -/
def Obligations.ZeroPageLoads : Prop :=
  ∀ (c : Config) (s : State) (req cyc : Int) (r : Reg) (v : Byte), AtSlot c s req cyc (.load r .zeroPage) →
    memRead s.mem (BitVec.ofNat 16 (operandByte s).toNat) = v →
    stepWith c s = .next { writeReg r v s with
      flags := loadedFlags v s.flags, pc := s.pc + 2, phase := .running req (cyc - 3) }

/-- R67, ZeroPageX, in a load of any register: the byte at `(d8 + X) mod 256`; 4 cycles, whatever `X` is. The index is the `X`
before the load. -/
def Obligations.ZeroPageXLoads : Prop :=
  ∀ (c : Config) (s : State) (req cyc : Int) (r : Reg) (v : Byte), AtSlot c s req cyc (.load r .zeroPageX) →
    memRead s.mem (BitVec.ofNat 16 (((operandByte s).toNat + s.x.toNat) % 256)) = v →
    stepWith c s = .next { writeReg r v s with
      flags := loadedFlags v s.flags, pc := s.pc + 2, phase := .running req (cyc - 4) }

/-- R68, ZeroPageY, in a load of any register: as R67 with `Y`. -/
def Obligations.ZeroPageYLoad : Prop :=
  ∀ (c : Config) (s : State) (req cyc : Int) (r : Reg) (v : Byte), AtSlot c s req cyc (.load r .zeroPageY) →
    memRead s.mem (BitVec.ofNat 16 (((operandByte s).toNat + s.y.toNat) % 256)) = v →
    stepWith c s = .next { writeReg r v s with
      flags := loadedFlags v s.flags, pc := s.pc + 2, phase := .running req (cyc - 4) }

/-- R69, Absolute, in a load of any register: the byte at `{hi, lo}`; 4 cycles. -/
def Obligations.AbsoluteLoads : Prop :=
  ∀ (c : Config) (s : State) (req cyc : Int) (r : Reg) (v : Byte), AtSlot c s req cyc (.load r .absolute) →
    memRead s.mem (operandWord s) = v →
    stepWith c s = .next { writeReg r v s with
      flags := loadedFlags v s.flags, pc := s.pc + 3, phase := .running req (cyc - 4) }

/-- R70, AbsoluteX, in a load of any register: the byte at the 16-bit sum with `X`; 4 cycles, 5 when the high byte changes. -/
def Obligations.AbsoluteXLoads : Prop :=
  ∀ (c : Config) (s : State) (req cyc : Int) (r : Reg) (ea : Addr) (n : Int), AtSlot c s req cyc (.load r .absoluteX) →
    ea = BitVec.ofNat 16 (((operandWord s).toNat + s.x.toNat) % 65536) →
    n = (if (operandWord s).toNat / 256 = ea.toNat / 256 then 4 else 5) →
    stepWith c s = .next { writeReg r (memRead s.mem ea) s with
      flags := loadedFlags (memRead s.mem ea) s.flags, pc := s.pc + 3, phase := .running req (cyc - n) }

/-- R71, AbsoluteY, in a load of any register: as R70 with `Y`. -/
def Obligations.AbsoluteYLoads : Prop :=
  ∀ (c : Config) (s : State) (req cyc : Int) (r : Reg) (ea : Addr) (n : Int), AtSlot c s req cyc (.load r .absoluteY) →
    ea = BitVec.ofNat 16 (((operandWord s).toNat + s.y.toNat) % 65536) →
    n = (if (operandWord s).toNat / 256 = ea.toNat / 256 then 4 else 5) →
    stepWith c s = .next { writeReg r (memRead s.mem ea) s with
      flags := loadedFlags (memRead s.mem ea) s.flags, pc := s.pc + 3, phase := .running req (cyc - n) }

/-- IndirectX, in a load of any register (41_addressing_modes.md section 2, R72): the pointer at `loc = (d8 + X) mod 256`, the
byte it points to; 6 cycles. That the pointer's high byte comes from `loc + 1` also for `loc = 0x00FF` is the spec's own choice,
D6 (log entry 9). -/
def Obligations.IndirectXLoad : Prop :=
  ∀ (c : Config) (s : State) (req cyc : Int) (r : Reg) (loc : Addr) (v : Byte), AtSlot c s req cyc (.load r .indirectX) →
    loc = BitVec.ofNat 16 (((operandByte s).toNat + s.x.toNat) % 256) →
    memRead s.mem (wordOf (memRead s.mem (loc + 1)) (memRead s.mem loc)) = v →
    stepWith c s = .next { writeReg r v s with
      flags := loadedFlags v s.flags, pc := s.pc + 2, phase := .running req (cyc - 6) }

/-- IndirectY, in a load of any register (41_addressing_modes.md section 2, R73): the pointer at `d8` plus `Y`; 5 cycles, 6 on a
page crossing. The pointer's high byte for `d8 = 0xFF` is the spec's own choice, D6 (log entry 9). -/
def Obligations.IndirectYLoad : Prop :=
  ∀ (c : Config) (s : State) (req cyc : Int) (r : Reg) (loc base ea : Addr) (n : Int), AtSlot c s req cyc (.load r .indirectY) →
    loc = BitVec.ofNat 16 (operandByte s).toNat → base = wordOf (memRead s.mem (loc + 1)) (memRead s.mem loc) →
    ea = BitVec.ofNat 16 ((base.toNat + s.y.toNat) % 65536) →
    n = (if base.toNat / 256 = ea.toNat / 256 then 5 else 6) →
    stepWith c s = .next { writeReg r (memRead s.mem ea) s with
      flags := loadedFlags (memRead s.mem ea) s.flags, pc := s.pc + 2, phase := .running req (cyc - n) }

/-- The load handler (42_load.md section 1, R75) for all twenty-seven pairs of register and mode that `OPMAP` can assign
(30_encoding.md section 2, R47), the nine without a row in R45 among them: the register takes the operand that `Resolve` gives
before anything is written, `Z` and `N` follow it, `PC` and the counter move as the mode says, and nothing else changes. -/
def Obligations.EveryLoadPairRunsTheLoadHandler : Prop :=
  ∀ (c : Config) (s : State) (req cyc : Int) (r : Reg) (m : Mode) (v : Byte), AtSlot c s req cyc (.load r m) →
    v = (resolve m (fetchedByte s)).1 →
    ∃ t, stepWith c s = .next t ∧ readReg r t = v ∧ (∀ q, q ≠ r → readReg q t = readReg q s) ∧
      t.flags = loadedFlags v s.flags ∧ t.pc = s.pc + BitVec.ofNat 16 (handlerLength (.load r m)) ∧
      t.phase = .running req (cyc - modeCycles s m) ∧
      { t with a := s.a, x := s.x, y := s.y, flags := s.flags, pc := s.pc, phase := s.phase } = s

/-- JSR as a whole instruction (43_jsr.md section 1, R95): the address of its last byte is pushed low byte first, `SP` moves by
one, `PC` takes the target; 6 cycles. The total is D4's (log entry 14), the place of the high byte at `SP = 0xFF` D5's (log
entry 9). -/
def Obligations.JsrPushesAndJumps : Prop :=
  ∀ (c : Config) (s : State) (req cyc : Int), AtSlot c s req cyc .jsr →
    ∃ t, stepWith c s = .next t ∧ t.pc = operandWord s ∧ t.sp = s.sp - 1 ∧ t.phase = .running req (cyc - 6) ∧
      memRead t.mem (stackAddress s.sp) = loByte (s.pc + 2) ∧ memRead t.mem (stackAddress s.sp + 1) = hiByte (s.pc + 2) ∧
      (∀ a, a ≠ stackAddress s.sp → a ≠ stackAddress s.sp + 1 → memRead t.mem a = memRead s.mem a) ∧
      { t with pc := s.pc, sp := s.sp, phase := s.phase, mem := s.mem } = s

/-- NOP as a whole instruction (44_nop_and_unassigned.md section 1, R99): `PC` by one, 2 cycles, no other effect. -/
def Obligations.NopOnlyTakesTwoCycles : Prop :=
  ∀ (c : Config) (s : State) (req cyc : Int), AtSlot c s req cyc .nop →
    stepWith c s = .next { s with pc := s.pc + 1, phase := .running req (cyc - 2) }

/-! ## The handlers, in every state -/

/-- The LDA handlers complete in every state, after their opcode fetch (42_load.md section 2). That the two indirect forms take
the pointer's high byte from the next address also at 0x00FF (`pointerAt`) is the spec's own choice, D6, and log entry 9. -/
def Obligations.LdaHandlersComplete : Prop :=
  ∀ (s : State) (d8 : Byte) (nn : Addr),
    exec (.ldaImm d8) s = .next { s with
      a := d8, flags := loadedFlags d8 s.flags, pc := s.pc + 1, phase := charge 1 s.phase } ∧
    (∃ v, v = memRead s.mem (zext16 d8) ∧ exec (.ldaZp d8) s = .next { s with
      a := v, flags := loadedFlags v s.flags, pc := s.pc + 1, phase := charge 2 s.phase }) ∧
    (∃ v, v = memRead s.mem (zext16 (d8 + s.x)) ∧ exec (.ldaZpX d8) s = .next { s with
      a := v, flags := loadedFlags v s.flags, pc := s.pc + 1, phase := charge 3 s.phase }) ∧
    (∃ v, v = memRead s.mem nn ∧ exec (.ldaAbs nn) s = .next { s with
      a := v, flags := loadedFlags v s.flags, pc := s.pc + 2, phase := charge 3 s.phase }) ∧
    (∃ v, v = memRead s.mem (nn + zext16 s.x) ∧ exec (.ldaAbsX nn) s = .next { s with
      a := v, flags := loadedFlags v s.flags, pc := s.pc + 2
      phase := charge (3 + crossingCycles nn (nn + zext16 s.x)) s.phase }) ∧
    (∃ v, v = memRead s.mem (nn + zext16 s.y) ∧ exec (.ldaAbsY nn) s = .next { s with
      a := v, flags := loadedFlags v s.flags, pc := s.pc + 2
      phase := charge (3 + crossingCycles nn (nn + zext16 s.y)) s.phase }) ∧
    (∃ v, v = memRead s.mem (pointerAt s (zext16 (d8 + s.x))) ∧ exec (.ldaIndX d8) s = .next { s with
      a := v, flags := loadedFlags v s.flags, pc := s.pc + 1, phase := charge 5 s.phase }) ∧
    (∃ v base, base = pointerAt s (zext16 d8) ∧ v = memRead s.mem (base + zext16 s.y) ∧ exec (.ldaIndY d8) s = .next { s with
      a := v, flags := loadedFlags v s.flags, pc := s.pc + 1
      phase := charge (4 + crossingCycles base (base + zext16 s.y)) s.phase })

/-- The LDX handlers complete in every state, after their opcode fetch (42_load.md section 3). -/
def Obligations.LdxHandlersComplete : Prop :=
  ∀ (s : State) (d8 : Byte) (nn : Addr),
    exec (.ldxImm d8) s = .next { s with
      x := d8, flags := loadedFlags d8 s.flags, pc := s.pc + 1, phase := charge 1 s.phase } ∧
    (∃ v, v = memRead s.mem (zext16 d8) ∧ exec (.ldxZp d8) s = .next { s with
      x := v, flags := loadedFlags v s.flags, pc := s.pc + 1, phase := charge 2 s.phase }) ∧
    (∃ v, v = memRead s.mem (zext16 (d8 + s.y)) ∧ exec (.ldxZpY d8) s = .next { s with
      x := v, flags := loadedFlags v s.flags, pc := s.pc + 1, phase := charge 3 s.phase }) ∧
    (∃ v, v = memRead s.mem nn ∧ exec (.ldxAbs nn) s = .next { s with
      x := v, flags := loadedFlags v s.flags, pc := s.pc + 2, phase := charge 3 s.phase }) ∧
    (∃ v, v = memRead s.mem (nn + zext16 s.y) ∧ exec (.ldxAbsY nn) s = .next { s with
      x := v, flags := loadedFlags v s.flags, pc := s.pc + 2
      phase := charge (3 + crossingCycles nn (nn + zext16 s.y)) s.phase })

/-- The LDY handlers complete in every state, after their opcode fetch (42_load.md section 4). -/
def Obligations.LdyHandlersComplete : Prop :=
  ∀ (s : State) (d8 : Byte) (nn : Addr),
    exec (.ldyImm d8) s = .next { s with
      y := d8, flags := loadedFlags d8 s.flags, pc := s.pc + 1, phase := charge 1 s.phase } ∧
    (∃ v, v = memRead s.mem (zext16 d8) ∧ exec (.ldyZp d8) s = .next { s with
      y := v, flags := loadedFlags v s.flags, pc := s.pc + 1, phase := charge 2 s.phase }) ∧
    (∃ v, v = memRead s.mem (zext16 (d8 + s.x)) ∧ exec (.ldyZpX d8) s = .next { s with
      y := v, flags := loadedFlags v s.flags, pc := s.pc + 1, phase := charge 3 s.phase }) ∧
    (∃ v, v = memRead s.mem nn ∧ exec (.ldyAbs nn) s = .next { s with
      y := v, flags := loadedFlags v s.flags, pc := s.pc + 2, phase := charge 3 s.phase }) ∧
    (∃ v, v = memRead s.mem (nn + zext16 s.x) ∧ exec (.ldyAbsX nn) s = .next { s with
      y := v, flags := loadedFlags v s.flags, pc := s.pc + 2
      phase := charge (3 + crossingCycles nn (nn + zext16 s.x)) s.phase })

/-- R76, and the frame of all eighteen loads: the flags from the loaded value; every register but the destination, the other
five flags, `SP`, every byte of memory and every output unchanged; and no influence of the previous values of `Z`, `N` and the
destination. The eighteen are R45's: a pair without a row there may have its index register as its destination (R75). -/
def Obligations.LoadFlagsInvariantAndFrame : Prop :=
  ∀ (i : Instr) (r : Reg) (s : State), destination i = some r →
    ∃ t v, exec i s = .next t ∧ readReg r t = v ∧ (∀ q, q ≠ r → readReg q t = readReg q s) ∧
      (t.flags.z = true ↔ v = 0x00) ∧ t.flags.n = v.getLsbD 7 ∧
      t.flags.c = s.flags.c ∧ t.flags.i = s.flags.i ∧ t.flags.d = s.flags.d ∧ t.flags.b = s.flags.b ∧ t.flags.v = s.flags.v ∧
      t.sp = s.sp ∧ (∀ a, memRead t.mem a = memRead s.mem a) ∧
      t.lastStatus = s.lastStatus ∧ t.lastConsumed = s.lastConsumed ∧ t.lastIllegalOp = s.lastIllegalOp ∧
      t.lastIllegalAddr = s.lastIllegalAddr ∧ t.resetDone = s.resetDone ∧ t.host = s.host ∧ t.hostOut = s.hostOut ∧
      ∀ w z n, exec i { writeReg r w s with flags := { s.flags with z := z, n := n } } = .next t

/-- The JSR handler completes in every state, after its opcode fetch, and its frame: every byte of memory but the two it
stores, all flags, `A`, `X`, `Y` and every output unchanged (43_jsr.md section 1). The total is D4's (log entry 14), the place of
the high byte at `SP = 0xFF` D5's (log entry 9). -/
def Obligations.JsrHandlerCompletesWithItsFrame : Prop :=
  ∀ (nn : Addr) (s : State),
    ∃ t, exec (.jsr nn) s = .next t ∧ t.pc = nn ∧ t.sp = s.sp - 1 ∧ t.phase = charge 5 s.phase ∧
      memRead t.mem (stackAddress s.sp) = loByte (s.pc + 1) ∧ memRead t.mem (stackAddress s.sp + 1) = hiByte (s.pc + 1) ∧
      (∀ a, a ≠ stackAddress s.sp → a ≠ stackAddress s.sp + 1 → memRead t.mem a = memRead s.mem a) ∧
      t.a = s.a ∧ t.x = s.x ∧ t.y = s.y ∧ t.flags = s.flags ∧
      t.lastStatus = s.lastStatus ∧ t.lastConsumed = s.lastConsumed ∧ t.lastIllegalOp = s.lastIllegalOp ∧
      t.lastIllegalAddr = s.lastIllegalAddr ∧ t.resetDone = s.resetDone ∧ t.host = s.host ∧ t.hostOut = s.hostOut

/-- The NOP handler completes in every state: one cycle, nothing else (44_nop_and_unassigned.md section 1). -/
def Obligations.NopHandlerCompletes : Prop :=
  ∀ s : State, exec .nop s = .next { s with phase := charge 1 s.phase }

/-! ## The unassigned opcodes -/

/-- An unassigned opcode under `Signal` (44_nop_and_unassigned.md section 2, R101; 60_exceptions.md section 1, R104, R106; the
form of the signal is D11): the execute ends with the four outputs, `PC` past the byte, 1 cycle charged, all else as it was. -/
def Obligations.UnassignedOpcodeSignals : Prop :=
  ∀ (c : Config) (s : State) (req cyc : Int), c.unassignedPolicy = .signal → s.phase = .running req cyc → 0 < cyc →
    c.opmap (memRead s.mem s.pc) = none →
    stepWith c s = .next { s with
      pc := s.pc + 1, phase := .idle, lastStatus := .illegalOpcode, lastConsumed := req - (cyc - 1)
      lastIllegalOp := memRead s.mem s.pc, lastIllegalAddr := s.pc }

/-- An unassigned opcode under `Nop` (44_nop_and_unassigned.md section 2, R100): `PC` by one, 2 cycles, no operand byte, no
other effect, and the run goes on. -/
def Obligations.UnassignedOpcodeIsSkipped : Prop :=
  ∀ (c : Config) (s : State) (req cyc : Int), c.unassignedPolicy = .nop → s.phase = .running req cyc → 0 < cyc →
    c.opmap (memRead s.mem s.pc) = none →
    stepWith c s = .next { s with pc := s.pc + 1, phase := .running req (cyc - 2) }

/-- Under both policies a run that fetches no unassigned opcode is the same run (44_nop_and_unassigned.md section 2, R102). -/
def Obligations.SafeRunsDoNotDependOnThePolicy : Prop :=
  ∀ (c : Config) (n : Nat) (s : State), SafeFor { c with unassignedPolicy := .signal } n s →
    stepsWith { c with unassignedPolicy := .nop } n s = stepsWith { c with unassignedPolicy := .signal } n s

/-! ## Rules about every instruction -/

/-- No step of a run changes `C`, `I`, `D`, `B` or `V`, and none but a load's changes any flag (10_state.md section 3, R15;
inert by D19). -/
def Obligations.OnlyLoadsChangeFlags : Prop :=
  ∀ (c : Config) (s t : State), s.phase ≠ .idle → stepWith c s = .next t →
    t.flags.c = s.flags.c ∧ t.flags.i = s.flags.i ∧ t.flags.d = s.flags.d ∧ t.flags.b = s.flags.b ∧ t.flags.v = s.flags.v ∧
    ((∀ r m, c.opmap (memRead s.mem s.pc) ≠ some (.load r m)) → t.flags = s.flags)

/-- No step of a run but JSR's changes `SP` or a byte of memory (10_state.md section 2, R11; 20_memory.md section 6, R41). -/
def Obligations.OnlyJsrChangesStackPointerAndMemory : Prop :=
  ∀ (c : Config) (s t : State), s.phase ≠ .idle → stepWith c s = .next t →
    c.opmap (memRead s.mem s.pc) ≠ some .jsr →
    t.sp = s.sp ∧ ∀ a, memRead t.mem a = memRead s.mem a

/-- `PC` after an instruction (10_state.md section 2, R12; 43_jsr.md section 2, R97): past its bytes, `mod 65536`, except after
JSR, where it is the target; past the one byte of an unassigned opcode; unmoved by the loop's exit. -/
def Obligations.ProgramCounterFollowsTheInstruction : Prop :=
  ∀ (c : Config) (s t : State) (req cyc : Int), s.phase = .running req cyc → stepWith c s = .next t →
    (cyc ≤ 0 → t.pc = s.pc) ∧
    (0 < cyc →
      match c.opmap (memRead s.mem s.pc) with
      | some .jsr => t.pc = operandWord s
      | some h => t.pc = s.pc + BitVec.ofNat 16 (handlerLength h)
      | none => t.pc = s.pc + 1)

/-- Two JSRs in a row (43_jsr.md section 1, R96): the second's high byte replaces the first's low byte, unless `SP` wrapped
between them. The high byte above 0x01FF, at 0x0200, is the spec's own choice, D5 (log entry 9). -/
def Obligations.SuccessiveJsrsOverlap : Prop :=
  ∀ (c : Config) (s t u : State), s.fetches → c.opmap (memRead s.mem s.pc) = some .jsr → stepWith c s = .next t →
    t.fetches → c.opmap (memRead t.mem t.pc) = some .jsr → stepWith c t = .next u →
    (s.sp ≠ 0x00 →
      memRead u.mem (stackAddress s.sp - 1) = loByte (t.pc + 2) ∧ memRead u.mem (stackAddress s.sp) = hiByte (t.pc + 2) ∧
      memRead u.mem (stackAddress s.sp + 1) = hiByte (s.pc + 2)) ∧
    (s.sp = 0x00 →
      memRead u.mem 0x0100 = loByte (s.pc + 2) ∧ memRead u.mem 0x0101 = hiByte (s.pc + 2) ∧
      memRead u.mem 0x01FF = loByte (t.pc + 2) ∧ memRead u.mem 0x0200 = hiByte (t.pc + 2))

/-- A fetch sees what JSR has just written (20_memory.md section 6, R41): the opcode byte at a target JSR itself wrote. That for
`SP = 0xFF` the second of those two bytes is at 0x0200 is the spec's own choice, D5, and log entry 9. -/
def Obligations.FetchSeesTheBytesJsrWrote : Prop :=
  ∀ (c : Config) (s : State), s.fetches → c.opmap (memRead s.mem s.pc) = some .jsr →
    ∃ t, stepWith c s = .next t ∧
      (operandWord s = stackAddress s.sp → memRead t.mem t.pc = loByte (s.pc + 2)) ∧
      (operandWord s = stackAddress s.sp + 1 → memRead t.mem t.pc = hiByte (s.pc + 2))

/-! ## Flags, arithmetic, the bus -/

/-- R14: `Z` and `N` from the value, never both, with the three outcomes; nothing else is written. It is applied by every
load, to the value in its register, and by nothing else. -/
def Obligations.SetZNFollowsTheValue : Prop :=
  ∀ (s : State),
    (∀ v : Byte, setZN v s = { s with flags := loadedFlags v s.flags } ∧
      ((setZN v s).flags.z, (setZN v s).flags.n) =
        if v.toNat = 0 then (true, false) else if v.toNat ≤ 127 then (false, false) else (false, true)) ∧
    (∀ i r, destination i = some r → ∃ t, exec i s = .next t ∧ t.flags = (setZN (readReg r t) s).flags) ∧
    (∀ i, destination i = none → ∃ t, exec i s = .next t ∧ t.flags = s.flags) ∧
    (∀ p op opaddr, (unassignedOpcode p op opaddr s).flags = s.flags)

/-- The page-crossing test as a carry out of the low byte (41_addressing_modes.md section 3, R74, whose equivalence is the
spec's inference): symmetric, and never with index 0. -/
def Obligations.PageCrossingIsTheLowByteCarry : Prop :=
  ∀ (base other : Addr) (idx : Byte),
    (pageCrossed base (base + zext16 idx) = true ↔ 256 ≤ base.toNat % 256 + idx.toNat) ∧
    pageCrossed base other = pageCrossed other base ∧
    (pageCrossed base other = true ↔ base.toNat / 256 ≠ other.toNat / 256)

/-- R28 and R30: `FetchByte` and `PeekByte`. -/
def Obligations.ByteBusOperations : Prop :=
  ∀ (s : State) (addr : Addr),
    fetchByte s = (memRead s.mem s.pc, { s with pc := s.pc + 1, phase := charge 1 s.phase }) ∧
    peekByte addr s = (memRead s.mem addr, { s with phase := charge 1 s.phase })

/-- `FetchWord`, `PeekWord` and `WriteWordToStack` (20_memory.md section 3, R29, R31, R32). The second byte's address, `mod
65536` with no wrap inside a page, is the spec's own choice, D5 and D6 (log entry 9). -/
def Obligations.WordBusOperations : Prop :=
  ∀ (s : State) (addr value : Addr),
    fetchWord s = (BitVec.ofNat 16 ((memRead s.mem (s.pc + 1)).toNat * 256 + (memRead s.mem s.pc).toNat),
      { s with pc := s.pc + 2, phase := charge 2 s.phase }) ∧
    peekWord addr s = (BitVec.ofNat 16 ((memRead s.mem (addr + 1)).toNat * 256 + (memRead s.mem addr).toNat),
      { s with phase := charge 2 s.phase }) ∧
    ∃ t, writeWordToStack value addr s = t ∧
      memRead t.mem addr = BitVec.ofNat 8 (value.toNat % 256) ∧ memRead t.mem (addr + 1) = BitVec.ofNat 8 (value.toNat / 256) ∧
      (∀ b, b ≠ addr → b ≠ addr + 1 → memRead t.mem b = memRead s.mem b) ∧
      { t with mem := s.mem } = { s with phase := charge 2 s.phase }

/-- The arithmetic of the block (10_state.md section 3, R129, collected by the spec from its other rules). -/
def Obligations.AddressArithmeticWraps : Prop :=
  ∀ (d8 idx sp : Byte) (addr : Addr),
    (zeroPageSum d8 idx).toNat = (d8.toNat + idx.toNat) % 256 ∧
    (indexSum addr idx).toNat = (addr.toNat + idx.toNat) % 65536 ∧
    (addr + 1).toNat = (addr.toNat + 1) % 65536 ∧ (addr + 2).toNat = (addr.toNat + 2) % 65536 ∧
    (addr - 1).toNat = (addr.toNat + 65535) % 65536 ∧ (sp - 1).toNat = (sp.toNat + 255) % 256 ∧
    (stackAddress sp).toNat = 256 + sp.toNat

/-- Equal reads are equal memories: the canonical form has one list for one image (the model's choice of data, log entry 10). -/
def Obligations.CanonicalMemoriesAreExtensional : Prop :=
  ∀ m m' : Memory, Memory.wf m → Memory.wf m' → (∀ a, memRead m a = memRead m' a) → m = m'

/-! ## Encoding. The opcode bytes are the default OPMAP's, from general knowledge (93 GK1, GK2; log entry 1). -/

/-- Decoding an encoded instruction gives it back, with every operand value, and leaves the bytes after it. -/
def Obligations.DecodeOfEncode : Prop :=
  ∀ (i : Instr) (rest : List Byte), i.wf = true → decode standardOpmap (encode i ++ rest) = .ok (i, rest)

/-- Bytes that decode are the encoding of what they decode to: each byte string has one meaning. -/
def Obligations.EncodeOfDecode : Prop :=
  ∀ (bs : List Byte) (i : Instr) (rest : List Byte), decode standardOpmap bs = .ok (i, rest) → bs = encode i ++ rest

/-- The default dispatch table (30_encoding.md section 2, R45): opcode byte, register and mode of its twenty rows. -/
def Obligations.DispatchTableRows : Prop :=
  ∀ p ∈ [((0xA9 : Byte), Handler.load .a .immediate), (0xA5, .load .a .zeroPage), (0xB5, .load .a .zeroPageX),
      (0xAD, .load .a .absolute), (0xBD, .load .a .absoluteX), (0xB9, .load .a .absoluteY), (0xA1, .load .a .indirectX),
      (0xB1, .load .a .indirectY), (0xA2, .load .x .immediate), (0xA6, .load .x .zeroPage), (0xB6, .load .x .zeroPageY),
      (0xAE, .load .x .absolute), (0xBE, .load .x .absoluteY), (0xA0, .load .y .immediate), (0xA4, .load .y .zeroPage),
      (0xB4, .load .y .zeroPageX), (0xAC, .load .y .absolute), (0xBC, .load .y .absoluteX), (0x20, .jsr), (0xEA, .nop)],
    standardOpmap p.1 = some p.2

/-- `OPMAP` can assign any of the twenty-seven pairs of register and mode (30_encoding.md section 2, R47). A pair whose form the
decoder has is an instruction's and decodes to one of the same register and mode; it names every other pair, and nothing is
shut out. That such a pair has no instruction of its own is the model's choice, log entry 19. -/
def Obligations.EveryAssignedOpcodeIsDecodedOrNamed : Prop :=
  ∀ (m : OpMap) (op b₁ b₂ : Byte) (h : Handler), m op = some h →
    (∃ i rest, decode m [op, b₁, b₂] = .ok (i, rest) ∧ handlerOf i = h ∧ [b₁, b₂] = operandBytes i ++ rest) ∨
    (∃ r md, h = .load r md ∧ (∀ i, handlerOf i ≠ h) ∧ decode m [op, b₁, b₂] = .error (.offTable r md))

/-- The unassigned bytes of the default table are the ranges of 30_encoding.md section 2, R46. -/
def Obligations.UnassignedBytesAreTheListedRanges : Prop :=
  ∀ op : Byte, standardOpmap op = none ↔
    op.toNat ≤ 0x1F ∨ (0x21 ≤ op.toNat ∧ op.toNat ≤ 0x9F) ∨
    op.toNat ∈ [0xA3, 0xA7, 0xA8, 0xAA, 0xAB, 0xAF, 0xB0, 0xB2, 0xB3, 0xB7, 0xB8, 0xBA, 0xBB, 0xBF] ∨
    (0xC0 ≤ op.toNat ∧ op.toNat ≤ 0xE9) ∨ 0xEB ≤ op.toNat

/-- Words written out from the spec's table and notation (30_encoding.md R45, R51) decode to what they stand for. -/
def Obligations.SampleWordsDecode : Prop :=
  decode standardOpmap [0xA9, 0x84] = .ok (.ldaImm 0x84, []) ∧
  decode standardOpmap [0xBD, 0x02, 0x44] = .ok (.ldaAbsX 0x4402, []) ∧
  decode standardOpmap [0xB6, 0x80] = .ok (.ldxZpY 0x80, []) ∧
  decode standardOpmap [0xAC, 0x34, 0x12] = .ok (.ldyAbs 0x1234, []) ∧
  decode standardOpmap [0x20, 0x42, 0x43, 0x00] = .ok (.jsr 0x4342, [0x00]) ∧
  decode standardOpmap [0xEA] = .ok (.nop, []) ∧
  decode standardOpmap [0x00, 0x00] = .error (.unassigned 0x00)
end

