-- ==== Sys2Proof/Laws/Memory.lean ====
section
/-! SUPPORT. What a write does to every later read, and that every memory operation keeps the canonical form. -/

namespace Sys2Proof.Machine

@[simp] theorem memRead_nil (a : Addr) : memRead [] a = unlistedByte := rfl

theorem memRead_cons (k : Nat) (v : Byte) (m : Memory) (a : Addr) :
    memRead ((k, v) :: m) a = if k = a.toNat then v else memRead m a := rfl

/-- An address no entry has reads as the unlisted byte. -/
theorem memRead_of_absent {m : Memory} {a : Addr} (h : ∀ c ∈ m, c.1 ≠ a.toNat) : memRead m a = unlistedByte := by
  induction m with
  | nil => rfl
  | cons c m ih =>
    rw [memRead_cons, if_neg (h c (by simp)), ih fun d hd => h d (by simp [hd])]

theorem memRead_insertCell_same {m : Memory} {a : Addr} (v : Byte) (h : ∀ c ∈ m, c.1 ≠ a.toNat) :
    memRead (insertCell a.toNat v m) a = v := by
  induction m with
  | nil => simp [insertCell, memRead_cons]
  | cons c m ih =>
    unfold insertCell
    split
    · simp [memRead_cons]
    · rw [memRead_cons, if_neg (h c (by simp)), ih fun d hd => h d (by simp [hd])]

theorem memRead_insertCell_other {m : Memory} {k : Nat} {a : Addr} (v : Byte) (h : k ≠ a.toNat) :
    memRead (insertCell k v m) a = memRead m a := by
  induction m with
  | nil => simp [insertCell, memRead_cons, h]
  | cons c m ih =>
    unfold insertCell
    split
    · simp [memRead_cons, h]
    · obtain ⟨j, w⟩ := c
      rw [memRead_cons, memRead_cons, ih]

theorem memRead_filter_other {m : Memory} {k : Nat} {a : Addr} (h : k ≠ a.toNat) :
    memRead (m.filter fun c => c.1 != k) a = memRead m a := by
  induction m with
  | nil => rfl
  | cons c m ih =>
    by_cases hc : c.1 = k
    · rw [List.filter_cons_of_neg (by simp [hc]), ih, memRead_cons, if_neg (by omega)]
    · rw [List.filter_cons_of_pos (by simp [hc]), memRead_cons, memRead_cons, ih]

/-- A byte written is the byte read there (R25); of any list, canonical or not. -/
theorem memRead_memWrite_same (m : Memory) (a : Addr) (v : Byte) : memRead (memWrite m a v) a = v := by
  unfold memWrite
  split
  · next h => rw [h, memRead_of_absent (by simp)]
  · exact memRead_insertCell_same v (by simp)

/-- A write changes no other byte (R25). -/
theorem memRead_memWrite_other (m : Memory) {a b : Addr} (v : Byte) (h : b ≠ a) :
    memRead (memWrite m a v) b = memRead m b := by
  have hk : a.toNat ≠ b.toNat := fun e => h (BitVec.eq_of_toNat_eq e.symm)
  unfold memWrite
  split
  · exact memRead_filter_other hk
  · rw [memRead_insertCell_other v hk, memRead_filter_other hk]

/-- The two together: every read after a write. -/
theorem memRead_memWrite (m : Memory) (a b : Addr) (v : Byte) :
    memRead (memWrite m a v) b = if b = a then v else memRead m b := by
  split
  · next h => rw [h, memRead_memWrite_same]
  · next h => exact memRead_memWrite_other m v h

theorem mem_insertCell {k : Nat} {v : Byte} {m : Memory} {c : Host.Cell} :
    c ∈ insertCell k v m ↔ c = (k, v) ∨ c ∈ m := by
  induction m with
  | nil => simp [insertCell]
  | cons d m ih =>
    unfold insertCell
    split
    · simp
    · simp only [List.mem_cons, ih]
      tauto

theorem insertCell_sorted {k : Nat} {v : Byte} {m : Memory} (hs : m.Pairwise fun c d => c.1 < d.1)
    (hk : ∀ c ∈ m, c.1 ≠ k) : (insertCell k v m).Pairwise fun c d => c.1 < d.1 := by
  induction m with
  | nil => simp [insertCell]
  | cons d m ih =>
    rw [List.pairwise_cons] at hs
    unfold insertCell
    split
    · next h =>
      refine List.pairwise_cons.2 ⟨fun c hc => ?_, List.pairwise_cons.2 hs⟩
      rcases List.mem_cons.1 hc with rfl | hc
      · exact h
      · exact Nat.lt_trans h (hs.1 c hc)
    · next h =>
      have hd : d.1 ≠ k := hk d (by simp)
      refine List.pairwise_cons.2 ⟨fun c hc => ?_, ih hs.2 fun c hc => hk c (by simp [hc])⟩
      rcases mem_insertCell.1 hc with rfl | hc
      · show d.1 < k
        have : ¬ k < d.1 := h
        omega
      · exact hs.1 c hc

/-- A write keeps the canonical form. -/
theorem memWrite_wf {m : Memory} (a : Addr) (v : Byte) (h : Memory.wf m) : Memory.wf (memWrite m a v) := by
  obtain ⟨hs, hc⟩ := h
  have hs' : (m.filter fun c => c.1 != a.toNat).Pairwise fun c d => c.1 < d.1 := hs.filter _
  unfold memWrite
  split
  · exact ⟨hs', fun c hm => hc c (List.mem_of_mem_filter hm)⟩
  · next hv =>
    refine ⟨insertCell_sorted hs' (by simp), fun c hm => ?_⟩
    rcases mem_insertCell.1 hm with rfl | hm
    · exact ⟨a.isLt, hv⟩
    · exact hc c (List.mem_of_mem_filter hm)

/-- The image after reset is canonical. -/
theorem reset_mem_wf : Memory.wf State.reset.mem := ⟨List.Pairwise.nil, by simp [State.reset]⟩

end Sys2Proof.Machine
end

