-- ==== Sys2Proof/Laws/State.lean ====
section
/-! SUPPORT. One lemma per field of State per update, true by rfl, so that no later proof unfolds a record update. -/

namespace Sys2Proof.Machine

/-! ## setPc -/

@[simp] theorem setPc_pc (t : Addr) (s : State) : (setPc t s).pc = t := rfl
@[simp] theorem setPc_sp (t : Addr) (s : State) : (setPc t s).sp = s.sp := rfl
@[simp] theorem setPc_a (t : Addr) (s : State) : (setPc t s).a = s.a := rfl
@[simp] theorem setPc_x (t : Addr) (s : State) : (setPc t s).x = s.x := rfl
@[simp] theorem setPc_y (t : Addr) (s : State) : (setPc t s).y = s.y := rfl
@[simp] theorem setPc_flags (t : Addr) (s : State) : (setPc t s).flags = s.flags := rfl
@[simp] theorem setPc_mem (t : Addr) (s : State) : (setPc t s).mem = s.mem := rfl
@[simp] theorem setPc_phase (t : Addr) (s : State) : (setPc t s).phase = s.phase := rfl
@[simp] theorem setPc_lastStatus (t : Addr) (s : State) : (setPc t s).lastStatus = s.lastStatus := rfl
@[simp] theorem setPc_lastConsumed (t : Addr) (s : State) : (setPc t s).lastConsumed = s.lastConsumed := rfl
@[simp] theorem setPc_lastIllegalOp (t : Addr) (s : State) : (setPc t s).lastIllegalOp = s.lastIllegalOp := rfl
@[simp] theorem setPc_lastIllegalAddr (t : Addr) (s : State) : (setPc t s).lastIllegalAddr = s.lastIllegalAddr := rfl
@[simp] theorem setPc_resetDone (t : Addr) (s : State) : (setPc t s).resetDone = s.resetDone := rfl
@[simp] theorem setPc_host (t : Addr) (s : State) : (setPc t s).host = s.host := rfl
@[simp] theorem setPc_hostOut (t : Addr) (s : State) : (setPc t s).hostOut = s.hostOut := rfl

/-! ## setSp -/

@[simp] theorem setSp_pc (v : Byte) (s : State) : (setSp v s).pc = s.pc := rfl
@[simp] theorem setSp_sp (v : Byte) (s : State) : (setSp v s).sp = v := rfl
@[simp] theorem setSp_a (v : Byte) (s : State) : (setSp v s).a = s.a := rfl
@[simp] theorem setSp_x (v : Byte) (s : State) : (setSp v s).x = s.x := rfl
@[simp] theorem setSp_y (v : Byte) (s : State) : (setSp v s).y = s.y := rfl
@[simp] theorem setSp_flags (v : Byte) (s : State) : (setSp v s).flags = s.flags := rfl
@[simp] theorem setSp_mem (v : Byte) (s : State) : (setSp v s).mem = s.mem := rfl
@[simp] theorem setSp_phase (v : Byte) (s : State) : (setSp v s).phase = s.phase := rfl
@[simp] theorem setSp_lastStatus (v : Byte) (s : State) : (setSp v s).lastStatus = s.lastStatus := rfl
@[simp] theorem setSp_lastConsumed (v : Byte) (s : State) : (setSp v s).lastConsumed = s.lastConsumed := rfl
@[simp] theorem setSp_lastIllegalOp (v : Byte) (s : State) : (setSp v s).lastIllegalOp = s.lastIllegalOp := rfl
@[simp] theorem setSp_lastIllegalAddr (v : Byte) (s : State) : (setSp v s).lastIllegalAddr = s.lastIllegalAddr := rfl
@[simp] theorem setSp_resetDone (v : Byte) (s : State) : (setSp v s).resetDone = s.resetDone := rfl
@[simp] theorem setSp_host (v : Byte) (s : State) : (setSp v s).host = s.host := rfl
@[simp] theorem setSp_hostOut (v : Byte) (s : State) : (setSp v s).hostOut = s.hostOut := rfl

/-! ## setZN -/

@[simp] theorem setZN_pc (v : Byte) (s : State) : (setZN v s).pc = s.pc := rfl
@[simp] theorem setZN_sp (v : Byte) (s : State) : (setZN v s).sp = s.sp := rfl
@[simp] theorem setZN_a (v : Byte) (s : State) : (setZN v s).a = s.a := rfl
@[simp] theorem setZN_x (v : Byte) (s : State) : (setZN v s).x = s.x := rfl
@[simp] theorem setZN_y (v : Byte) (s : State) : (setZN v s).y = s.y := rfl
@[simp] theorem setZN_flags (v : Byte) (s : State) : (setZN v s).flags = znFlags v s.flags := rfl
@[simp] theorem setZN_mem (v : Byte) (s : State) : (setZN v s).mem = s.mem := rfl
@[simp] theorem setZN_phase (v : Byte) (s : State) : (setZN v s).phase = s.phase := rfl
@[simp] theorem setZN_lastStatus (v : Byte) (s : State) : (setZN v s).lastStatus = s.lastStatus := rfl
@[simp] theorem setZN_lastConsumed (v : Byte) (s : State) : (setZN v s).lastConsumed = s.lastConsumed := rfl
@[simp] theorem setZN_lastIllegalOp (v : Byte) (s : State) : (setZN v s).lastIllegalOp = s.lastIllegalOp := rfl
@[simp] theorem setZN_lastIllegalAddr (v : Byte) (s : State) : (setZN v s).lastIllegalAddr = s.lastIllegalAddr := rfl
@[simp] theorem setZN_resetDone (v : Byte) (s : State) : (setZN v s).resetDone = s.resetDone := rfl
@[simp] theorem setZN_host (v : Byte) (s : State) : (setZN v s).host = s.host := rfl
@[simp] theorem setZN_hostOut (v : Byte) (s : State) : (setZN v s).hostOut = s.hostOut := rfl

/-! ## pokeByte -/

@[simp] theorem pokeByte_pc (a : Addr) (v : Byte) (s : State) : (pokeByte a v s).pc = s.pc := rfl
@[simp] theorem pokeByte_sp (a : Addr) (v : Byte) (s : State) : (pokeByte a v s).sp = s.sp := rfl
@[simp] theorem pokeByte_a (a : Addr) (v : Byte) (s : State) : (pokeByte a v s).a = s.a := rfl
@[simp] theorem pokeByte_x (a : Addr) (v : Byte) (s : State) : (pokeByte a v s).x = s.x := rfl
@[simp] theorem pokeByte_y (a : Addr) (v : Byte) (s : State) : (pokeByte a v s).y = s.y := rfl
@[simp] theorem pokeByte_flags (a : Addr) (v : Byte) (s : State) : (pokeByte a v s).flags = s.flags := rfl
@[simp] theorem pokeByte_mem (a : Addr) (v : Byte) (s : State) : (pokeByte a v s).mem = memWrite s.mem a v := rfl
@[simp] theorem pokeByte_phase (a : Addr) (v : Byte) (s : State) : (pokeByte a v s).phase = s.phase := rfl
@[simp] theorem pokeByte_lastStatus (a : Addr) (v : Byte) (s : State) : (pokeByte a v s).lastStatus = s.lastStatus := rfl
@[simp] theorem pokeByte_lastConsumed (a : Addr) (v : Byte) (s : State) : (pokeByte a v s).lastConsumed = s.lastConsumed := rfl
@[simp] theorem pokeByte_lastIllegalOp (a : Addr) (v : Byte) (s : State) : (pokeByte a v s).lastIllegalOp = s.lastIllegalOp := rfl
@[simp] theorem pokeByte_lastIllegalAddr (a : Addr) (v : Byte) (s : State) : (pokeByte a v s).lastIllegalAddr = s.lastIllegalAddr := rfl
@[simp] theorem pokeByte_resetDone (a : Addr) (v : Byte) (s : State) : (pokeByte a v s).resetDone = s.resetDone := rfl
@[simp] theorem pokeByte_host (a : Addr) (v : Byte) (s : State) : (pokeByte a v s).host = s.host := rfl
@[simp] theorem pokeByte_hostOut (a : Addr) (v : Byte) (s : State) : (pokeByte a v s).hostOut = s.hostOut := rfl

/-! ## tick -/

@[simp] theorem tick_pc (n : Nat) (s : State) : (tick n s).pc = s.pc := rfl
@[simp] theorem tick_sp (n : Nat) (s : State) : (tick n s).sp = s.sp := rfl
@[simp] theorem tick_a (n : Nat) (s : State) : (tick n s).a = s.a := rfl
@[simp] theorem tick_x (n : Nat) (s : State) : (tick n s).x = s.x := rfl
@[simp] theorem tick_y (n : Nat) (s : State) : (tick n s).y = s.y := rfl
@[simp] theorem tick_flags (n : Nat) (s : State) : (tick n s).flags = s.flags := rfl
@[simp] theorem tick_mem (n : Nat) (s : State) : (tick n s).mem = s.mem := rfl
@[simp] theorem tick_phase (n : Nat) (s : State) : (tick n s).phase = charge n s.phase := rfl
@[simp] theorem tick_lastStatus (n : Nat) (s : State) : (tick n s).lastStatus = s.lastStatus := rfl
@[simp] theorem tick_lastConsumed (n : Nat) (s : State) : (tick n s).lastConsumed = s.lastConsumed := rfl
@[simp] theorem tick_lastIllegalOp (n : Nat) (s : State) : (tick n s).lastIllegalOp = s.lastIllegalOp := rfl
@[simp] theorem tick_lastIllegalAddr (n : Nat) (s : State) : (tick n s).lastIllegalAddr = s.lastIllegalAddr := rfl
@[simp] theorem tick_resetDone (n : Nat) (s : State) : (tick n s).resetDone = s.resetDone := rfl
@[simp] theorem tick_host (n : Nat) (s : State) : (tick n s).host = s.host := rfl
@[simp] theorem tick_hostOut (n : Nat) (s : State) : (tick n s).hostOut = s.hostOut := rfl

/-! ## fetchedByte -/

@[simp] theorem fetchedByte_pc (s : State) : (fetchedByte s).pc = s.pc + 1 := rfl
@[simp] theorem fetchedByte_sp (s : State) : (fetchedByte s).sp = s.sp := rfl
@[simp] theorem fetchedByte_a (s : State) : (fetchedByte s).a = s.a := rfl
@[simp] theorem fetchedByte_x (s : State) : (fetchedByte s).x = s.x := rfl
@[simp] theorem fetchedByte_y (s : State) : (fetchedByte s).y = s.y := rfl
@[simp] theorem fetchedByte_flags (s : State) : (fetchedByte s).flags = s.flags := rfl
@[simp] theorem fetchedByte_mem (s : State) : (fetchedByte s).mem = s.mem := rfl
@[simp] theorem fetchedByte_phase (s : State) : (fetchedByte s).phase = charge 1 s.phase := rfl
@[simp] theorem fetchedByte_lastStatus (s : State) : (fetchedByte s).lastStatus = s.lastStatus := rfl
@[simp] theorem fetchedByte_lastConsumed (s : State) : (fetchedByte s).lastConsumed = s.lastConsumed := rfl
@[simp] theorem fetchedByte_lastIllegalOp (s : State) : (fetchedByte s).lastIllegalOp = s.lastIllegalOp := rfl
@[simp] theorem fetchedByte_lastIllegalAddr (s : State) : (fetchedByte s).lastIllegalAddr = s.lastIllegalAddr := rfl
@[simp] theorem fetchedByte_resetDone (s : State) : (fetchedByte s).resetDone = s.resetDone := rfl
@[simp] theorem fetchedByte_host (s : State) : (fetchedByte s).host = s.host := rfl
@[simp] theorem fetchedByte_hostOut (s : State) : (fetchedByte s).hostOut = s.hostOut := rfl

/-! ## fetchedWord -/

@[simp] theorem fetchedWord_pc (s : State) : (fetchedWord s).pc = s.pc + 2 := rfl
@[simp] theorem fetchedWord_sp (s : State) : (fetchedWord s).sp = s.sp := rfl
@[simp] theorem fetchedWord_a (s : State) : (fetchedWord s).a = s.a := rfl
@[simp] theorem fetchedWord_x (s : State) : (fetchedWord s).x = s.x := rfl
@[simp] theorem fetchedWord_y (s : State) : (fetchedWord s).y = s.y := rfl
@[simp] theorem fetchedWord_flags (s : State) : (fetchedWord s).flags = s.flags := rfl
@[simp] theorem fetchedWord_mem (s : State) : (fetchedWord s).mem = s.mem := rfl
@[simp] theorem fetchedWord_phase (s : State) : (fetchedWord s).phase = charge 2 s.phase := rfl
@[simp] theorem fetchedWord_lastStatus (s : State) : (fetchedWord s).lastStatus = s.lastStatus := rfl
@[simp] theorem fetchedWord_lastConsumed (s : State) : (fetchedWord s).lastConsumed = s.lastConsumed := rfl
@[simp] theorem fetchedWord_lastIllegalOp (s : State) : (fetchedWord s).lastIllegalOp = s.lastIllegalOp := rfl
@[simp] theorem fetchedWord_lastIllegalAddr (s : State) : (fetchedWord s).lastIllegalAddr = s.lastIllegalAddr := rfl
@[simp] theorem fetchedWord_resetDone (s : State) : (fetchedWord s).resetDone = s.resetDone := rfl
@[simp] theorem fetchedWord_host (s : State) : (fetchedWord s).host = s.host := rfl
@[simp] theorem fetchedWord_hostOut (s : State) : (fetchedWord s).hostOut = s.hostOut := rfl

/-! ## writeWordToStack -/

@[simp] theorem writeWordToStack_pc (w b : Addr) (s : State) : (writeWordToStack w b s).pc = s.pc := rfl
@[simp] theorem writeWordToStack_sp (w b : Addr) (s : State) : (writeWordToStack w b s).sp = s.sp := rfl
@[simp] theorem writeWordToStack_a (w b : Addr) (s : State) : (writeWordToStack w b s).a = s.a := rfl
@[simp] theorem writeWordToStack_x (w b : Addr) (s : State) : (writeWordToStack w b s).x = s.x := rfl
@[simp] theorem writeWordToStack_y (w b : Addr) (s : State) : (writeWordToStack w b s).y = s.y := rfl
@[simp] theorem writeWordToStack_flags (w b : Addr) (s : State) : (writeWordToStack w b s).flags = s.flags := rfl
@[simp] theorem writeWordToStack_mem (w b : Addr) (s : State) : (writeWordToStack w b s).mem = memWrite (memWrite s.mem b (loByte w)) (b + 1) (hiByte w) := rfl
@[simp] theorem writeWordToStack_phase (w b : Addr) (s : State) : (writeWordToStack w b s).phase = charge 2 s.phase := rfl
@[simp] theorem writeWordToStack_lastStatus (w b : Addr) (s : State) : (writeWordToStack w b s).lastStatus = s.lastStatus := rfl
@[simp] theorem writeWordToStack_lastConsumed (w b : Addr) (s : State) : (writeWordToStack w b s).lastConsumed = s.lastConsumed := rfl
@[simp] theorem writeWordToStack_lastIllegalOp (w b : Addr) (s : State) : (writeWordToStack w b s).lastIllegalOp = s.lastIllegalOp := rfl
@[simp] theorem writeWordToStack_lastIllegalAddr (w b : Addr) (s : State) : (writeWordToStack w b s).lastIllegalAddr = s.lastIllegalAddr := rfl
@[simp] theorem writeWordToStack_resetDone (w b : Addr) (s : State) : (writeWordToStack w b s).resetDone = s.resetDone := rfl
@[simp] theorem writeWordToStack_host (w b : Addr) (s : State) : (writeWordToStack w b s).host = s.host := rfl
@[simp] theorem writeWordToStack_hostOut (w b : Addr) (s : State) : (writeWordToStack w b s).hostOut = s.hostOut := rfl

/-! ## writeReg: the register named, and every other field -/

@[simp] theorem writeReg_a_a (v : Byte) (s : State) : (writeReg .a v s).a = v := rfl
@[simp] theorem writeReg_a_x (v : Byte) (s : State) : (writeReg .a v s).x = s.x := rfl
@[simp] theorem writeReg_a_y (v : Byte) (s : State) : (writeReg .a v s).y = s.y := rfl
@[simp] theorem writeReg_x_a (v : Byte) (s : State) : (writeReg .x v s).a = s.a := rfl
@[simp] theorem writeReg_x_x (v : Byte) (s : State) : (writeReg .x v s).x = v := rfl
@[simp] theorem writeReg_x_y (v : Byte) (s : State) : (writeReg .x v s).y = s.y := rfl
@[simp] theorem writeReg_y_a (v : Byte) (s : State) : (writeReg .y v s).a = s.a := rfl
@[simp] theorem writeReg_y_x (v : Byte) (s : State) : (writeReg .y v s).x = s.x := rfl
@[simp] theorem writeReg_y_y (v : Byte) (s : State) : (writeReg .y v s).y = v := rfl
@[simp] theorem writeReg_pc (r : Reg) (v : Byte) (s : State) : (writeReg r v s).pc = s.pc := by cases r <;> rfl
@[simp] theorem writeReg_sp (r : Reg) (v : Byte) (s : State) : (writeReg r v s).sp = s.sp := by cases r <;> rfl
@[simp] theorem writeReg_flags (r : Reg) (v : Byte) (s : State) : (writeReg r v s).flags = s.flags := by cases r <;> rfl
@[simp] theorem writeReg_mem (r : Reg) (v : Byte) (s : State) : (writeReg r v s).mem = s.mem := by cases r <;> rfl
@[simp] theorem writeReg_phase (r : Reg) (v : Byte) (s : State) : (writeReg r v s).phase = s.phase := by cases r <;> rfl
@[simp] theorem writeReg_lastStatus (r : Reg) (v : Byte) (s : State) : (writeReg r v s).lastStatus = s.lastStatus := by cases r <;> rfl
@[simp] theorem writeReg_lastConsumed (r : Reg) (v : Byte) (s : State) : (writeReg r v s).lastConsumed = s.lastConsumed := by cases r <;> rfl
@[simp] theorem writeReg_lastIllegalOp (r : Reg) (v : Byte) (s : State) : (writeReg r v s).lastIllegalOp = s.lastIllegalOp := by cases r <;> rfl
@[simp] theorem writeReg_lastIllegalAddr (r : Reg) (v : Byte) (s : State) : (writeReg r v s).lastIllegalAddr = s.lastIllegalAddr := by cases r <;> rfl
@[simp] theorem writeReg_resetDone (r : Reg) (v : Byte) (s : State) : (writeReg r v s).resetDone = s.resetDone := by cases r <;> rfl
@[simp] theorem writeReg_host (r : Reg) (v : Byte) (s : State) : (writeReg r v s).host = s.host := by cases r <;> rfl
@[simp] theorem writeReg_hostOut (r : Reg) (v : Byte) (s : State) : (writeReg r v s).hostOut = s.hostOut := by cases r <;> rfl

/-! ## tickCrossing changes the phase alone -/

@[simp] theorem tickCrossing_phase (b e : Addr) (s : State) :
    (tickCrossing b e s).phase = charge (pageCrossed b e).toNat s.phase := by
  unfold tickCrossing
  split
  · next h => simp [h]
  · next h => cases hp : s.phase <;> simp [charge, h]
@[simp] theorem tickCrossing_pc (b e : Addr) (s : State) : (tickCrossing b e s).pc = s.pc := by
  unfold tickCrossing
  split <;> rfl
@[simp] theorem tickCrossing_sp (b e : Addr) (s : State) : (tickCrossing b e s).sp = s.sp := by
  unfold tickCrossing
  split <;> rfl
@[simp] theorem tickCrossing_a (b e : Addr) (s : State) : (tickCrossing b e s).a = s.a := by
  unfold tickCrossing
  split <;> rfl
@[simp] theorem tickCrossing_x (b e : Addr) (s : State) : (tickCrossing b e s).x = s.x := by
  unfold tickCrossing
  split <;> rfl
@[simp] theorem tickCrossing_y (b e : Addr) (s : State) : (tickCrossing b e s).y = s.y := by
  unfold tickCrossing
  split <;> rfl
@[simp] theorem tickCrossing_flags (b e : Addr) (s : State) : (tickCrossing b e s).flags = s.flags := by
  unfold tickCrossing
  split <;> rfl
@[simp] theorem tickCrossing_mem (b e : Addr) (s : State) : (tickCrossing b e s).mem = s.mem := by
  unfold tickCrossing
  split <;> rfl
@[simp] theorem tickCrossing_lastStatus (b e : Addr) (s : State) : (tickCrossing b e s).lastStatus = s.lastStatus := by
  unfold tickCrossing
  split <;> rfl
@[simp] theorem tickCrossing_lastConsumed (b e : Addr) (s : State) : (tickCrossing b e s).lastConsumed = s.lastConsumed := by
  unfold tickCrossing
  split <;> rfl
@[simp] theorem tickCrossing_lastIllegalOp (b e : Addr) (s : State) : (tickCrossing b e s).lastIllegalOp = s.lastIllegalOp := by
  unfold tickCrossing
  split <;> rfl
@[simp] theorem tickCrossing_lastIllegalAddr (b e : Addr) (s : State) : (tickCrossing b e s).lastIllegalAddr = s.lastIllegalAddr := by
  unfold tickCrossing
  split <;> rfl
@[simp] theorem tickCrossing_resetDone (b e : Addr) (s : State) : (tickCrossing b e s).resetDone = s.resetDone := by
  unfold tickCrossing
  split <;> rfl
@[simp] theorem tickCrossing_host (b e : Addr) (s : State) : (tickCrossing b e s).host = s.host := by
  unfold tickCrossing
  split <;> rfl
@[simp] theorem tickCrossing_hostOut (b e : Addr) (s : State) : (tickCrossing b e s).hostOut = s.hostOut := by
  unfold tickCrossing
  split <;> rfl

/-! ## The cycle counter -/

@[simp] theorem charge_idle (n : Nat) : charge n .idle = .idle := rfl
@[simp] theorem charge_running (n : Nat) (req cyc : Int) : charge n (.running req cyc) = .running req (cyc - n) := rfl

/-- A charge of nothing is no change. -/
@[simp] theorem charge_zero (p : Phase) : charge 0 p = p := by cases p <;> simp [charge]

/-- Charges add up. -/
@[simp] theorem charge_charge (m n : Nat) (p : Phase) : charge m (charge n p) = charge (n + m) p := by
  cases p with
  | idle => rfl
  | running req cyc => simp only [charge, Nat.cast_add, Phase.running.injEq, true_and]; omega

/-! ## The end of an `execute` -/

/-- What ending a run sets, and that it sets nothing else (R57, R18). -/
theorem finishExecute_running {s : State} {req cyc : Int} (st : Status) (h : s.phase = .running req cyc) :
    finishExecute st s = { s with phase := .idle, lastStatus := st, lastConsumed := req - cyc } := by
  simp [finishExecute, h]

/-- There is no run to end while idle. -/
theorem finishExecute_idle {s : State} (st : Status) (h : s.phase = .idle) : finishExecute st s = s := by
  simp [finishExecute, h]

end Sys2Proof.Machine
end

