-- ==== Sys2Proof/Laws/Ops.lean ====
section
/-! SUPPORT. One lemma per shared operation that says everything it does, for proofs to cite instead of unfolding it. -/

namespace Sys2Proof.Machine

/-! ## Addresses and bytes -/

@[simp] theorem loByte_wordOf (hi lo : Byte) : loByte (wordOf hi lo) = lo := by
  unfold loByte wordOf
  exact BitVec.setWidth_append_eq_right

@[simp] theorem hiByte_wordOf (hi lo : Byte) : hiByte (wordOf hi lo) = hi := by
  apply BitVec.eq_of_toNat_eq
  have h1 := hi.isLt
  have h2 := lo.isLt
  simp only [hiByte, wordOf, BitVec.toNat_setWidth, BitVec.toNat_ushiftRight, BitVec.toNat_append,
    Nat.shiftRight_or_distrib, Nat.shiftLeft_shiftRight]
  rw [Nat.shiftRight_eq_div_pow, Nat.div_eq_of_lt h2, Nat.or_zero, Nat.mod_eq_of_lt h1]

theorem loByte_toNat (v : Addr) : (loByte v).toNat = v.toNat % 256 := by
  simp [loByte]

theorem hiByte_toNat (v : Addr) : (hiByte v).toNat = v.toNat / 256 := by
  have h := v.isLt
  simp only [hiByte, BitVec.toNat_setWidth, BitVec.toNat_ushiftRight, Nat.shiftRight_eq_div_pow]
  omega

/-- `{h, l} = h * 256 + l` (R5). -/
theorem wordOf_toNat (hi lo : Byte) : (wordOf hi lo).toNat = hi.toNat * 256 + lo.toNat := by
  have h := lo.isLt
  simp only [wordOf, BitVec.toNat_append]
  rw [← Nat.shiftLeft_add_eq_or_of_lt (by simpa using h), Nat.shiftLeft_eq]

@[simp] theorem wordOf_hiByte_loByte (v : Addr) : wordOf (hiByte v) (loByte v) = v := by
  apply BitVec.eq_of_toNat_eq
  rw [wordOf_toNat, hiByte_toNat, loByte_toNat]
  omega

theorem zext16_toNat (v : Byte) : (zext16 v).toNat = v.toNat := by
  have h := v.isLt
  simp only [zext16, BitVec.toNat_setWidth]
  omega

/-! ## The addressing modes: the byte read, and the state with its whole charge -/

/-- Two tick charges in a row are one. -/
@[simp] theorem tick_tick (m n : Nat) (s : State) : tick m (tick n s) = tick (n + m) s := by
  simp [tick]

/-- A charge of nothing is no change. -/
@[simp] theorem tick_zero (s : State) : tick 0 s = s := by
  simp [tick]

theorem tickCrossing_eq (b e : Addr) (s : State) : tickCrossing b e s = tick (pageCrossed b e).toNat s := by
  unfold tickCrossing
  split
  · next h => simp [h]
  · next h => simp [h]

theorem zeroPageOperand_eq (d8 : Byte) (s : State) :
    zeroPageOperand d8 s = (memRead s.mem (zext16 d8), tick 1 s) := rfl

theorem zeroPageIndexedOperand_eq (idx d8 : Byte) (s : State) :
    zeroPageIndexedOperand idx d8 s = (memRead s.mem (zeroPageSum d8 idx), tick 2 s) := by
  simp [zeroPageIndexedOperand, peekByte]

theorem absoluteOperand_eq (nn : Addr) (s : State) : absoluteOperand nn s = (memRead s.mem nn, tick 1 s) := rfl

theorem absoluteIndexedOperand_eq (idx : Byte) (base : Addr) (s : State) :
    absoluteIndexedOperand idx base s =
      (memRead s.mem (indexSum base idx), tick ((pageCrossed base (indexSum base idx)).toNat + 1) s) := by
  simp [absoluteIndexedOperand, peekByte, tickCrossing_eq]

theorem indirectXOperand_eq (d8 : Byte) (s : State) :
    indirectXOperand d8 s =
      (memRead s.mem (wordOf (memRead s.mem (zeroPageSum d8 s.x + 1)) (memRead s.mem (zeroPageSum d8 s.x))), tick 4 s) := by
  simp [indirectXOperand, peekWord, peekByte]

theorem indirectYOperand_eq (d8 : Byte) (s : State) :
    indirectYOperand d8 s =
      let base := wordOf (memRead s.mem (zext16 d8 + 1)) (memRead s.mem (zext16 d8))
      (memRead s.mem (indexSum base s.y), tick (2 + ((pageCrossed base (indexSum base s.y)).toNat + 1)) s) := by
  simp [indirectYOperand, peekWord, absoluteIndexedOperand_eq]

/-- Everything a load does once its operand is resolved (R75). -/
theorem loadReg_eq (r : Reg) (v : Byte) (s : State) :
    loadReg r (v, s) = { writeReg r v s with flags := znFlags v s.flags } := by
  simp [loadReg, setZN]

/-- What `Resolve` does beside returning the operand: `PC` past the operand bytes and 1 to 5 cycles charged (R64). -/
theorem resolve_state (m : Mode) (s : State) :
    ∃ n, 1 ≤ n ∧ n ≤ 5 ∧ (resolve m s).2 = tick n (setPc (s.pc + BitVec.ofNat 16 (modeOperandBytes m)) s) := by
  have crossing (b e : Addr) : (pageCrossed b e).toNat ≤ 1 := Bool.toNat_le _
  cases m with
  | immediate => exact ⟨1, by decide, by decide, rfl⟩
  | zeroPage => exact ⟨2, by decide, by decide, by simp [resolve, zeroPageOperand_eq, fetchByte, fetchedByte, modeOperandBytes]⟩
  | zeroPageX =>
    exact ⟨3, by decide, by decide, by simp [resolve, zeroPageIndexedOperand_eq, fetchByte, fetchedByte, modeOperandBytes]⟩
  | zeroPageY =>
    exact ⟨3, by decide, by decide, by simp [resolve, zeroPageIndexedOperand_eq, fetchByte, fetchedByte, modeOperandBytes]⟩
  | absolute => exact ⟨3, by decide, by decide, by simp [resolve, absoluteOperand_eq, fetchWord, fetchedWord, modeOperandBytes]⟩
  | absoluteX =>
    refine ⟨2 + ((pageCrossed (fetchWord s).1 (indexSum (fetchWord s).1 s.x)).toNat + 1), by omega, ?_, ?_⟩
    · have := crossing (fetchWord s).1 (indexSum (fetchWord s).1 s.x)
      omega
    · simp [resolve, absoluteIndexedOperand_eq, fetchWord, fetchedWord, modeOperandBytes]
  | absoluteY =>
    refine ⟨2 + ((pageCrossed (fetchWord s).1 (indexSum (fetchWord s).1 s.y)).toNat + 1), by omega, ?_, ?_⟩
    · have := crossing (fetchWord s).1 (indexSum (fetchWord s).1 s.y)
      omega
    · simp [resolve, absoluteIndexedOperand_eq, fetchWord, fetchedWord, modeOperandBytes]
  | indirectX =>
    exact ⟨5, by decide, by decide, by simp [resolve, indirectXOperand_eq, fetchByte, fetchedByte, modeOperandBytes]⟩
  | indirectY =>
    let base := pointerAt s (zext16 (memRead s.mem s.pc))
    refine ⟨1 + (2 + ((pageCrossed base (indexSum base s.y)).toNat + 1)), by omega, ?_, ?_⟩
    · have := crossing base (indexSum base s.y)
      omega
    · simp [resolve, indirectYOperand_eq, fetchByte, fetchedByte, modeOperandBytes, base, pointerAt]

/-- Everything the load handler does, for any register and mode (R75). -/
theorem loadHandler_eq (r : Reg) (m : Mode) (s : State) :
    loadHandler r m s =
      { writeReg r (resolve m s).1 (resolve m s).2 with flags := znFlags (resolve m s).1 (resolve m s).2.flags } := by
  simp [loadHandler, loadReg, setZN]

/-- Everything JSR does after its operand word (R95). -/
theorem jsrTo_eq (target : Addr) (s : State) :
    jsrTo target s = { s with
      pc := target
      sp := s.sp - 1
      mem := memWrite (memWrite s.mem (stackAddress s.sp) (loByte (s.pc - 1))) (stackAddress s.sp + 1) (hiByte (s.pc - 1))
      phase := charge 3 s.phase } := by
  simp [jsrTo, writeWordToStack, tick, setPc, setSp, pokeByte]

/-- Taking the exception ends the run and sets the four outputs; it changes nothing else (R106). -/
theorem raiseIllegalOpcode_running {s : State} {req cyc : Int} (op : Byte) (opaddr : Addr) (h : s.phase = .running req cyc) :
    raiseIllegalOpcode op opaddr s = { s with
      phase := .idle, lastStatus := .illegalOpcode, lastConsumed := req - cyc, lastIllegalOp := op, lastIllegalAddr := opaddr } := by
  simp [raiseIllegalOpcode, finishExecute_running _ h]

/-! ## Fetching -/

/-- A handler's form is an instruction's, or the handler is a load of a pair that has no row in R45. -/
theorem opForm_cases (h : Handler) :
    (∃ i, handlerOf i = h ∧ ∃ f, opForm h = .ok f) ∨ (∃ r m, h = .load r m ∧ opForm h = .error (.offTable r m)) := by
  rcases h with ⟨r, m⟩ | _ | _
  · cases r <;> cases m <;> first
      | exact .inr ⟨_, _, rfl, rfl⟩
      | exact .inl ⟨.ldaImm 0, rfl, _, rfl⟩
      | exact .inl ⟨.ldaZp 0, rfl, _, rfl⟩
      | exact .inl ⟨.ldaZpX 0, rfl, _, rfl⟩
      | exact .inl ⟨.ldaAbs 0, rfl, _, rfl⟩
      | exact .inl ⟨.ldaAbsX 0, rfl, _, rfl⟩
      | exact .inl ⟨.ldaAbsY 0, rfl, _, rfl⟩
      | exact .inl ⟨.ldaIndX 0, rfl, _, rfl⟩
      | exact .inl ⟨.ldaIndY 0, rfl, _, rfl⟩
      | exact .inl ⟨.ldxImm 0, rfl, _, rfl⟩
      | exact .inl ⟨.ldxZp 0, rfl, _, rfl⟩
      | exact .inl ⟨.ldxZpY 0, rfl, _, rfl⟩
      | exact .inl ⟨.ldxAbs 0, rfl, _, rfl⟩
      | exact .inl ⟨.ldxAbsY 0, rfl, _, rfl⟩
      | exact .inl ⟨.ldyImm 0, rfl, _, rfl⟩
      | exact .inl ⟨.ldyZp 0, rfl, _, rfl⟩
      | exact .inl ⟨.ldyZpX 0, rfl, _, rfl⟩
      | exact .inl ⟨.ldyAbs 0, rfl, _, rfl⟩
      | exact .inl ⟨.ldyAbsX 0, rfl, _, rfl⟩
  · exact .inl ⟨.jsr 0, rfl, _, rfl⟩
  · exact .inl ⟨.nop, rfl, _, rfl⟩

/-- Two operand bytes are enough for every form. -/
theorem readOperands_two (f : Form) (b₁ b₂ : Byte) : ∃ p, readOperands f [b₁, b₂] = .ok p := by
  cases f <;> exact ⟨_, rfl⟩

/-- An assigned opcode byte decodes with the operand bytes that follow it, if its handler has a form. -/
theorem decode_instructionBytes_assigned {m : OpMap} {s : State} {h : Handler} {f : Form}
    (ho : m (memRead s.mem s.pc) = some h) (hf : opForm h = .ok f) :
    decode m (instructionBytes s) = readOperands f [memRead s.mem (s.pc + 1), memRead s.mem (s.pc + 2)] := by
  simp [instructionBytes, decode, ho, hf]

/-- A load of a pair without a row in R45 is named by the decoder. -/
theorem decode_instructionBytes_offTable {m : OpMap} {s : State} {r : Reg} {md : Mode}
    (ho : m (memRead s.mem s.pc) = some (.load r md)) (hf : opForm (.load r md) = .error (.offTable r md)) :
    decode m (instructionBytes s) = .error (.offTable r md) := by
  simp [instructionBytes, decode, ho, hf]

/-- An unassigned opcode byte is rejected as such. -/
theorem decode_instructionBytes_unassigned {m : OpMap} {s : State} (h : m (memRead s.mem s.pc) = none) :
    decode m (instructionBytes s) = .error (.unassigned (memRead s.mem s.pc)) := by
  simp [instructionBytes, decode, h]

/-- All that the decoder can answer for the bytes at `PC`: they truncate no instruction. -/
theorem decode_instructionBytes_cases (m : OpMap) (s : State) :
    (∃ p, decode m (instructionBytes s) = .ok p) ∨
    (∃ r md, m (memRead s.mem s.pc) = some (.load r md) ∧ decode m (instructionBytes s) = .error (.offTable r md)) ∨
    (m (memRead s.mem s.pc) = none ∧ decode m (instructionBytes s) = .error (.unassigned (memRead s.mem s.pc))) := by
  cases ho : m (memRead s.mem s.pc) with
  | none => exact .inr (.inr ⟨rfl, decode_instructionBytes_unassigned ho⟩)
  | some h =>
    rcases opForm_cases h with ⟨_, _, f, hf⟩ | ⟨r, md, rfl, hf⟩
    · rw [decode_instructionBytes_assigned ho hf]
      exact .inl (readOperands_two f _ _)
    · exact .inr (.inl ⟨r, md, rfl, decode_instructionBytes_offTable ho hf⟩)

/-- While running with cycles left a step is one instruction. -/
theorem stepWith_running {c : Config} {s : State} {req cyc : Int} (h : s.phase = .running req cyc) (hp : 0 < cyc) :
    stepWith c s = runInstruction c s := by
  simp [stepWith, h, hp]

/-- While running with no cycles left a step ends the `execute`. -/
theorem stepWith_ended {c : Config} {s : State} {req cyc : Int} (h : s.phase = .running req cyc) (hp : cyc ≤ 0) :
    stepWith c s = .next (finishExecute .ok s) := by
  simp [stepWith, h, Int.not_lt.2 hp]

/-- While idle a step is the host's next operation. -/
theorem stepWith_host {c : Config} {s : State} {op : HostOp} {rest : List HostOp} (h : s.phase = .idle)
    (hq : s.host = op :: rest) : stepWith c s = hostStep c op { s with host := rest } := by
  simp [stepWith, h, hq]

end Sys2Proof.Machine
end

