-- ==== Sys2Proof/Laws/PerInstr.lean ====
section
/-! SUPPORT. Facts about every instruction as syntax, one lemma per constructor. -/

namespace Sys2Proof.Laws

/-- The encoding has the length of the instruction's format (30_encoding.md R43). -/
def EncodedLength.Statement (i : Instr) : Prop := (encode i).length = instrLength i

theorem EncodedLength.ldaImm (d8 : Byte) : EncodedLength.Statement (.ldaImm d8) := rfl
theorem EncodedLength.ldaZp (d8 : Byte) : EncodedLength.Statement (.ldaZp d8) := rfl
theorem EncodedLength.ldaZpX (d8 : Byte) : EncodedLength.Statement (.ldaZpX d8) := rfl
theorem EncodedLength.ldaAbs (nn : Addr) : EncodedLength.Statement (.ldaAbs nn) := rfl
theorem EncodedLength.ldaAbsX (nn : Addr) : EncodedLength.Statement (.ldaAbsX nn) := rfl
theorem EncodedLength.ldaAbsY (nn : Addr) : EncodedLength.Statement (.ldaAbsY nn) := rfl
theorem EncodedLength.ldaIndX (d8 : Byte) : EncodedLength.Statement (.ldaIndX d8) := rfl
theorem EncodedLength.ldaIndY (d8 : Byte) : EncodedLength.Statement (.ldaIndY d8) := rfl
theorem EncodedLength.ldxImm (d8 : Byte) : EncodedLength.Statement (.ldxImm d8) := rfl
theorem EncodedLength.ldxZp (d8 : Byte) : EncodedLength.Statement (.ldxZp d8) := rfl
theorem EncodedLength.ldxZpY (d8 : Byte) : EncodedLength.Statement (.ldxZpY d8) := rfl
theorem EncodedLength.ldxAbs (nn : Addr) : EncodedLength.Statement (.ldxAbs nn) := rfl
theorem EncodedLength.ldxAbsY (nn : Addr) : EncodedLength.Statement (.ldxAbsY nn) := rfl
theorem EncodedLength.ldyImm (d8 : Byte) : EncodedLength.Statement (.ldyImm d8) := rfl
theorem EncodedLength.ldyZp (d8 : Byte) : EncodedLength.Statement (.ldyZp d8) := rfl
theorem EncodedLength.ldyZpX (d8 : Byte) : EncodedLength.Statement (.ldyZpX d8) := rfl
theorem EncodedLength.ldyAbs (nn : Addr) : EncodedLength.Statement (.ldyAbs nn) := rfl
theorem EncodedLength.ldyAbsX (nn : Addr) : EncodedLength.Statement (.ldyAbsX nn) := rfl
theorem EncodedLength.jsr (nn : Addr) : EncodedLength.Statement (.jsr nn) := rfl
theorem EncodedLength.nop : EncodedLength.Statement .nop := rfl

/-- The default `OPMAP` assigns the byte the encoder writes to the instruction's own handler (R45). -/
def OpcodeAssigned.Statement (i : Instr) : Prop := standardOpmap (opcodeByte i) = some (handlerOf i)

theorem OpcodeAssigned.ldaImm (d8 : Byte) : OpcodeAssigned.Statement (.ldaImm d8) := rfl
theorem OpcodeAssigned.ldaZp (d8 : Byte) : OpcodeAssigned.Statement (.ldaZp d8) := rfl
theorem OpcodeAssigned.ldaZpX (d8 : Byte) : OpcodeAssigned.Statement (.ldaZpX d8) := rfl
theorem OpcodeAssigned.ldaAbs (nn : Addr) : OpcodeAssigned.Statement (.ldaAbs nn) := rfl
theorem OpcodeAssigned.ldaAbsX (nn : Addr) : OpcodeAssigned.Statement (.ldaAbsX nn) := rfl
theorem OpcodeAssigned.ldaAbsY (nn : Addr) : OpcodeAssigned.Statement (.ldaAbsY nn) := rfl
theorem OpcodeAssigned.ldaIndX (d8 : Byte) : OpcodeAssigned.Statement (.ldaIndX d8) := rfl
theorem OpcodeAssigned.ldaIndY (d8 : Byte) : OpcodeAssigned.Statement (.ldaIndY d8) := rfl
theorem OpcodeAssigned.ldxImm (d8 : Byte) : OpcodeAssigned.Statement (.ldxImm d8) := rfl
theorem OpcodeAssigned.ldxZp (d8 : Byte) : OpcodeAssigned.Statement (.ldxZp d8) := rfl
theorem OpcodeAssigned.ldxZpY (d8 : Byte) : OpcodeAssigned.Statement (.ldxZpY d8) := rfl
theorem OpcodeAssigned.ldxAbs (nn : Addr) : OpcodeAssigned.Statement (.ldxAbs nn) := rfl
theorem OpcodeAssigned.ldxAbsY (nn : Addr) : OpcodeAssigned.Statement (.ldxAbsY nn) := rfl
theorem OpcodeAssigned.ldyImm (d8 : Byte) : OpcodeAssigned.Statement (.ldyImm d8) := rfl
theorem OpcodeAssigned.ldyZp (d8 : Byte) : OpcodeAssigned.Statement (.ldyZp d8) := rfl
theorem OpcodeAssigned.ldyZpX (d8 : Byte) : OpcodeAssigned.Statement (.ldyZpX d8) := rfl
theorem OpcodeAssigned.ldyAbs (nn : Addr) : OpcodeAssigned.Statement (.ldyAbs nn) := rfl
theorem OpcodeAssigned.ldyAbsX (nn : Addr) : OpcodeAssigned.Statement (.ldyAbsX nn) := rfl
theorem OpcodeAssigned.jsr (nn : Addr) : OpcodeAssigned.Statement (.jsr nn) := rfl
theorem OpcodeAssigned.nop : OpcodeAssigned.Statement .nop := rfl

end Sys2Proof.Laws
end

