-- ==== Sys2Proof/Laws/Step.lean ====
section
/-! SUPPORT. Inversion: everything a step, an instruction of a run, and a host operation can do. Proofs about every step
start here instead of unfolding `stepWith`. -/

namespace Sys2Proof.Machine

/-- An instruction of a run is the decoded one's handler, the load handler of a pair without a row in R45, or the handler of
the unassigned opcodes (R47, R58). -/
theorem runInstruction_next_cases {c : Config} {s t : State} (h : runInstruction c s = .next t) :
    (∃ i rest, decode c.opmap (instructionBytes s) = .ok (i, rest) ∧ exec i (fetchedByte s) = .next t) ∨
    (∃ r m, c.opmap (memRead s.mem s.pc) = some (.load r m) ∧ t = loadHandler r m (fetchedByte s)) ∨
    (c.opmap (memRead s.mem s.pc) = none ∧
      t = unassignedOpcode c.unassignedPolicy (memRead s.mem s.pc) s.pc (fetchedByte s)) := by
  unfold runInstruction at h
  rcases decode_instructionBytes_cases c.opmap s with ⟨⟨i, rest⟩, hd⟩ | ⟨r, m, ho, hd⟩ | ⟨ho, hd⟩ <;> rw [hd] at h
  · exact .inl ⟨i, rest, hd, h⟩
  · exact .inr (.inl ⟨r, m, ho, (Host.Outcome.next.inj h).symm⟩)
  · exact .inr (.inr ⟨ho, (Host.Outcome.next.inj h).symm⟩)

/-- A host operation that is not refused (R53). -/
theorem hostStep_next_cases {c : Config} {op : HostOp} {s t : State} (h : hostStep c op s = .next t) :
    (op = .reset ∧ t = resetOperation s) ∨
    (∃ budget, op = .execute budget ∧ s.resetDone = true ∧ budgetFits c.cycleW budget = true ∧
      t = { s with phase := .running budget budget }) ∨
    (∃ addr, op = .memRead addr ∧ t = { s with hostOut := some (.byte (memRead s.mem addr)) }) ∨
    (∃ addr v, op = .memWrite addr v ∧ t = pokeByte addr v s) ∨
    (∃ r, op = .regRead r ∧ t = { s with hostOut := some (.reg (readRegister s r)) }) ∨
    (∃ rv, op = .regWrite rv ∧ c.hostRegAccess = .readWrite ∧ t = writeRegister s rv) := by
  cases op with
  | reset => exact .inl ⟨rfl, (Host.Outcome.next.inj h).symm⟩
  | execute budget =>
    simp only [hostStep] at h
    split at h
    · cases h
    · split at h
      · cases h
      · next hr hb =>
        exact .inr (.inl ⟨budget, rfl, by simpa using hr, by simpa using hb, (Host.Outcome.next.inj h).symm⟩)
  | memRead addr => exact .inr (.inr (.inl ⟨addr, rfl, (Host.Outcome.next.inj h).symm⟩))
  | memWrite addr v => exact .inr (.inr (.inr (.inl ⟨addr, v, rfl, (Host.Outcome.next.inj h).symm⟩)))
  | regRead r => exact .inr (.inr (.inr (.inr (.inl ⟨r, rfl, (Host.Outcome.next.inj h).symm⟩))))
  | regWrite rv =>
    simp only [hostStep] at h
    split at h
    · next ha => exact .inr (.inr (.inr (.inr (.inr ⟨rv, rfl, ha, (Host.Outcome.next.inj h).symm⟩))))
    · cases h

/-- A step that is not refused: an instruction, the end of an `execute`, nothing, or a host operation (R7, R57). -/
theorem stepWith_next_cases {c : Config} {s t : State} (h : stepWith c s = .next t) :
    (∃ req cyc, s.phase = .running req cyc ∧ 0 < cyc ∧ runInstruction c s = .next t) ∨
    (∃ req cyc, s.phase = .running req cyc ∧ cyc ≤ 0 ∧
      t = { s with phase := .idle, lastStatus := .ok, lastConsumed := req - cyc }) ∨
    (s.phase = .idle ∧ s.host = [] ∧ t = s) ∨
    (∃ op rest, s.phase = .idle ∧ s.host = op :: rest ∧ hostStep c op { s with host := rest } = .next t) := by
  cases hp : s.phase with
  | running req cyc =>
    by_cases hc : 0 < cyc
    · exact .inl ⟨req, cyc, rfl, hc, stepWith_running hp hc ▸ h⟩
    · rw [stepWith_ended hp (Int.not_lt.1 hc), finishExecute_running _ hp] at h
      exact .inr (.inl ⟨req, cyc, rfl, Int.not_lt.1 hc, (Host.Outcome.next.inj h).symm⟩)
  | idle =>
    cases hq : s.host with
    | nil =>
      simp only [stepWith, hp, hq] at h
      exact .inr (.inr (.inl ⟨rfl, rfl, (Host.Outcome.next.inj h).symm⟩))
    | cons op rest =>
      rw [stepWith_host hp hq, hp] at h
      exact .inr (.inr (.inr ⟨op, rest, rfl, rfl, h⟩))

end Sys2Proof.Machine
end

