-- ==== Sys2Proof/Tests/Slice0.lean ====
section
/-! SUPPORT. The model's own tests. Expected results are the spec's: 95_test_vectors.md (the vector's id stands in each
comment), the encodings of 30_encoding.md R45 and R51. Then a witness for each statement that has hypotheses. -/

namespace Sys2Proof.Machine.Tests

/-! ## Decoding: one word written out from the spec's encoding for each instruction -/

theorem test_decode_ldaImm : decode standardOpmap [0xA9, 0x84] = .ok (.ldaImm 0x84, []) := by decide
theorem test_decode_ldaZp : decode standardOpmap [0xA5, 0x80] = .ok (.ldaZp 0x80, []) := by decide
theorem test_decode_ldaZpX : decode standardOpmap [0xB5, 0x80] = .ok (.ldaZpX 0x80, []) := by decide
theorem test_decode_ldaAbs : decode standardOpmap [0xAD, 0x02, 0x44] = .ok (.ldaAbs 0x4402, []) := by decide
theorem test_decode_ldaAbsX : decode standardOpmap [0xBD, 0x02, 0x44] = .ok (.ldaAbsX 0x4402, []) := by decide
theorem test_decode_ldaAbsY : decode standardOpmap [0xB9, 0x02, 0x44] = .ok (.ldaAbsY 0x4402, []) := by decide
theorem test_decode_ldaIndX : decode standardOpmap [0xA1, 0x02] = .ok (.ldaIndX 0x02, []) := by decide
theorem test_decode_ldaIndY : decode standardOpmap [0xB1, 0x06] = .ok (.ldaIndY 0x06, []) := by decide
theorem test_decode_ldxImm : decode standardOpmap [0xA2, 0xFF] = .ok (.ldxImm 0xFF, []) := by decide
theorem test_decode_ldxZp : decode standardOpmap [0xA6, 0x10] = .ok (.ldxZp 0x10, []) := by decide
theorem test_decode_ldxZpY : decode standardOpmap [0xB6, 0x80] = .ok (.ldxZpY 0x80, []) := by decide
theorem test_decode_ldxAbs : decode standardOpmap [0xAE, 0x00, 0x30] = .ok (.ldxAbs 0x3000, []) := by decide
theorem test_decode_ldxAbsY : decode standardOpmap [0xBE, 0xFD, 0x10] = .ok (.ldxAbsY 0x10FD, []) := by decide
theorem test_decode_ldyImm : decode standardOpmap [0xA0, 0x04] = .ok (.ldyImm 0x04, []) := by decide
theorem test_decode_ldyZp : decode standardOpmap [0xA4, 0x10] = .ok (.ldyZp 0x10, []) := by decide
theorem test_decode_ldyZpX : decode standardOpmap [0xB4, 0xFF] = .ok (.ldyZpX 0xFF, []) := by decide
theorem test_decode_ldyAbs : decode standardOpmap [0xAC, 0x34, 0x12] = .ok (.ldyAbs 0x1234, []) := by decide
theorem test_decode_ldyAbsX : decode standardOpmap [0xBC, 0x02, 0x44] = .ok (.ldyAbsX 0x4402, []) := by decide
theorem test_decode_jsr : decode standardOpmap [0x20, 0x42, 0x43] = .ok (.jsr 0x4342, []) := by decide
theorem test_decode_nop : decode standardOpmap [0xEA] = .ok (.nop, []) := by decide

theorem test_decode_rejects_00 : decode standardOpmap [0x00, 0xA9] = .error (.unassigned 0x00) := by decide

theorem test_decode_rejects_truncated : decode standardOpmap [0xAD, 0x02] = .error .truncated := by decide

/-- A table word: opcode in bits 7:0, `lo` in bits 15:8, `hi` in bits 23:16 (R43). -/
theorem test_decodeTableWord_f3 : decodeTableWord 24 0x4342BD = some (.ldaAbsX 0x4342) := by decide

/-- With only the opcode's bits given the operand bytes are zeros. -/
theorem test_decodeTableWord_opcode_alone : decodeTableWord 8 0xFFFF20 = some (.jsr 0x0000) := by decide

theorem test_withFetchWord_runs_it : step (State.reset.withFetchWord 16 0x84A9) =
    exec (.ldaImm 0x84) (fetchedByte (State.reset.withFetchWord 16 0x84A9)) := by rfl

/-! ## Well-formedness: no check on an instruction can fail (30_encoding.md R49); a host operation has two -/

theorem test_wf_largest_budget : HostOp.wf Config.default (.execute 2147483642) = true := by decide

theorem test_wf_refuses_budget : HostOp.wf Config.default (.execute 2147483643) = false := by decide

theorem test_wf_refuses_readonly_write :
    HostOp.wf { hostRegAccess := .readOnly } (.regWrite (.a 0x80)) = false := by decide

/-! ## One step on a small state -/

/-- `s` with the host's writes made and `execute(budget)` started. -/
def started (budget : Int) (writes : List (Addr × Byte)) (s : State) : State :=
  { writes.foldl (fun t w => pokeByte w.1 w.2 t) s with phase := .running budget budget }

/-- What a test looks at: `PC`, `A`, `X`, `Y`, `Z`, `N` and the phase. -/
structure Seen where
  pc : Addr
  a : Byte
  x : Byte
  y : Byte
  z : Bool
  n : Bool
  phase : Phase
  deriving DecidableEq, Repr

/-- What a test looks at in a next state. -/
def look : Result → Option Seen
  | .next t => some ⟨t.pc, t.a, t.x, t.y, t.flags.z, t.flags.n, t.phase⟩
  | .fault _ => none
  | .refused _ => none

/-- `PC`, `SP` and the bytes at some addresses of a next state. -/
def lookMem (as : List Addr) : Result → Option (Addr × Byte × List Byte)
  | .next t => some (t.pc, t.sp, as.map (memRead t.mem))
  | .fault _ => none
  | .refused _ => none

/-- Vector S1, A1. -/
theorem test_ldaImm_A1 :
    look (step (started 2 [(0xFFFC, 0xA9), (0xFFFD, 0x84)] State.reset)) =
      some ⟨0xFFFE, 0x84, 0x00, 0x00, false, true, .running 2 0⟩ := by decide

/-- Vector A5. -/
theorem test_ldaZp_A5 :
    look (step (started 3 [(0x0042, 0x37), (0xFFFC, 0xA5), (0xFFFD, 0x42)] State.reset)) =
      some ⟨0xFFFE, 0x37, 0x00, 0x00, false, false, .running 3 0⟩ := by decide

/-- Vector A7: FF + 1 wraps to 00. -/
theorem test_ldaZpX_A7 :
    look (step (started 4 [(0x0000, 0x11), (0x0100, 0xEE), (0xFFFC, 0xB5), (0xFFFD, 0xFF)] { State.reset with x := 0x01 })) =
      some ⟨0xFFFE, 0x11, 0x01, 0x00, false, false, .running 4 0⟩ := by decide

/-- Vector S3. -/
theorem test_ldaZpX_S3 :
    look (step (started 4 [(0x007F, 0x12), (0x017F, 0xEE), (0xFFFC, 0xB5), (0xFFFD, 0x80)] { State.reset with x := 0xFF })) =
      some ⟨0xFFFE, 0x12, 0xFF, 0x00, false, false, .running 4 0⟩ := by decide

/-- Vector A9: zero result. -/
theorem test_ldaAbs_A9 :
    look (step (started 4 [(0x4480, 0x00), (0xFFFC, 0xAD), (0xFFFD, 0x80), (0xFFFE, 0x44)] { State.reset with a := 0x09 })) =
      some ⟨0xFFFF, 0x00, 0x00, 0x00, true, false, .running 4 0⟩ := by decide

/-- Vector A10: operand word across the top of memory. -/
theorem test_ldaAbs_A10 :
    look (step (started 4 [(0x1234, 0x7F), (0xFFFE, 0xAD), (0xFFFF, 0x34), (0x0000, 0x12)] { State.reset with pc := 0xFFFE })) =
      some ⟨0x0001, 0x7F, 0x00, 0x00, false, false, .running 4 0⟩ := by decide

/-- Vector A11: no crossing. -/
theorem test_ldaAbsX_A11 :
    look (step (started 4 [(0x12FF, 0x01), (0xFFFC, 0xBD), (0xFFFD, 0xFF), (0xFFFE, 0x12)] { State.reset with x := 0x00 })) =
      some ⟨0xFFFF, 0x01, 0x00, 0x00, false, false, .running 4 0⟩ := by decide

/-- Vector S4, A13: crossing. -/
theorem test_ldaAbsX_S4 :
    look (step (started 5 [(0x4501, 0x37), (0xFFFC, 0xBD), (0xFFFD, 0x02), (0xFFFE, 0x44)] { State.reset with x := 0xFF })) =
      some ⟨0xFFFF, 0x37, 0xFF, 0x00, false, false, .running 5 0⟩ := by decide

/-- Vector A15. -/
theorem test_ldaAbsY_A15 :
    look (step (started 4 [(0x4481, 0xC0), (0xFFFC, 0xB9), (0xFFFD, 0x80), (0xFFFE, 0x44)] { State.reset with y := 0x01 })) =
      some ⟨0xFFFF, 0xC0, 0x00, 0x01, false, true, .running 4 0⟩ := by decide

/-- Vector A16: FFFF + FF wraps and crosses. -/
theorem test_ldaAbsY_A16 :
    look (step (started 5 [(0x00FE, 0x03), (0xFFFC, 0xB9), (0xFFFD, 0xFF), (0xFFFE, 0xFF)] { State.reset with y := 0xFF })) =
      some ⟨0xFFFF, 0x03, 0x00, 0xFF, false, false, .running 5 0⟩ := by decide

/-- Vector S5, A18. -/
theorem test_ldaIndX_S5 :
    look (step (started 6 [(0x0006, 0x00), (0x0007, 0x80), (0x8000, 0x37), (0xFFFC, 0xA1), (0xFFFD, 0x02)] { State.reset with x := 0x04 })) =
      some ⟨0xFFFE, 0x37, 0x04, 0x00, false, false, .running 6 0⟩ := by decide

/-- Vector A20: pointer at 00FF, high byte from 0100. -/
theorem test_ldaIndX_A20 :
    look (step (started 6 [(0x00FF, 0x34), (0x0100, 0x12), (0x0000, 0x99), (0x1234, 0x5A), (0x9934, 0xEE), (0xFFFC, 0xA1), (0xFFFD, 0xFE)] { State.reset with x := 0x01 })) =
      some ⟨0xFFFE, 0x5A, 0x01, 0x00, false, false, .running 6 0⟩ := by decide

/-- Vector A23: crossing, zero result. -/
theorem test_ldaIndY_A23 :
    look (step (started 6 [(0x0006, 0xFE), (0x0007, 0x20), (0x2102, 0x00), (0xFFFC, 0xB1), (0xFFFD, 0x06)] { State.reset with y := 0x04, a := 0x55 })) =
      some ⟨0xFFFE, 0x00, 0x00, 0x04, true, false, .running 6 0⟩ := by decide

/-- Vector A24: pointer at 00FF, no crossing. -/
theorem test_ldaIndY_A24 :
    look (step (started 5 [(0x00FF, 0x34), (0x0100, 0x12), (0x0000, 0x99), (0x1234, 0x5A), (0x9934, 0xEE), (0xFFFC, 0xB1), (0xFFFD, 0xFF)] { State.reset with y := 0x00 })) =
      some ⟨0xFFFE, 0x5A, 0x00, 0x00, false, false, .running 5 0⟩ := by decide

/-- Vector X1. -/
theorem test_ldxImm_X1 :
    look (step (started 2 [(0xFFFC, 0xA2), (0xFFFD, 0xFF)] State.reset)) =
      some ⟨0xFFFE, 0x00, 0xFF, 0x00, false, true, .running 2 0⟩ := by decide

/-- Vector X3. -/
theorem test_ldxZp_X3 :
    look (step (started 3 [(0x0010, 0xFE), (0xFFFC, 0xA6), (0xFFFD, 0x10)] State.reset)) =
      some ⟨0xFFFE, 0x00, 0xFE, 0x00, false, true, .running 3 0⟩ := by decide

/-- Vector X5: the index is Y, not X. -/
theorem test_ldxZpY_X5 :
    look (step (started 4 [(0x0000, 0x05), (0xFFFC, 0xB6), (0xFFFD, 0x80)] { State.reset with x := 0x05, y := 0x80 })) =
      some ⟨0xFFFE, 0x00, 0x05, 0x80, false, false, .running 4 0⟩ := by decide

/-- Vector X6. -/
theorem test_ldxAbs_X6 :
    look (step (started 4 [(0x3000, 0x01), (0xFFFC, 0xAE), (0xFFFD, 0x00), (0xFFFE, 0x30)] State.reset)) =
      some ⟨0xFFFF, 0x00, 0x01, 0x00, false, false, .running 4 0⟩ := by decide

/-- Vector X7: 3080 + 7F = 30FF. -/
theorem test_ldxAbsY_X7 :
    look (step (started 4 [(0x30FF, 0x22), (0xFFFC, 0xBE), (0xFFFD, 0x80), (0xFFFE, 0x30)] { State.reset with y := 0x7F })) =
      some ⟨0xFFFF, 0x00, 0x22, 0x7F, false, false, .running 4 0⟩ := by decide

/-- Vector X8: 3080 + 80 = 3100. -/
theorem test_ldxAbsY_X8 :
    look (step (started 5 [(0x3100, 0x23), (0xFFFC, 0xBE), (0xFFFD, 0x80), (0xFFFE, 0x30)] { State.reset with y := 0x80 })) =
      some ⟨0xFFFF, 0x00, 0x23, 0x80, false, false, .running 5 0⟩ := by decide

/-- Vector Y2: zero result. -/
theorem test_ldyZp_Y2 :
    look (step (started 3 [(0xFFFC, 0xA4), (0xFFFD, 0x00)] { State.reset with y := 0x09 })) =
      some ⟨0xFFFE, 0x00, 0x00, 0x00, true, false, .running 3 0⟩ := by decide

/-- Vector Y3. -/
theorem test_ldyZpX_Y3 :
    look (step (started 4 [(0x0001, 0x09), (0xFFFC, 0xB4), (0xFFFD, 0xFF)] { State.reset with x := 0x02 })) =
      some ⟨0xFFFE, 0x00, 0x02, 0x09, false, false, .running 4 0⟩ := by decide

/-- Vector Y4: highest address. -/
theorem test_ldyAbs_Y4 :
    look (step (started 4 [(0xFFFF, 0x77), (0xFFFC, 0xAC), (0xFFFD, 0xFF), (0xFFFE, 0xFF)] State.reset)) =
      some ⟨0xFFFF, 0x00, 0x00, 0x77, false, false, .running 4 0⟩ := by decide

/-- Vector Y5: 0200 + FF = 02FF. -/
theorem test_ldyAbsX_Y5 :
    look (step (started 4 [(0x02FF, 0x40), (0xFFFC, 0xBC), (0xFFFD, 0x00), (0xFFFE, 0x02)] { State.reset with x := 0xFF })) =
      some ⟨0xFFFF, 0x00, 0xFF, 0x40, false, false, .running 4 0⟩ := by decide

/-- Vector Y6: 0201 + FF = 0300. -/
theorem test_ldyAbsX_Y6 :
    look (step (started 5 [(0x0300, 0x41), (0xFFFC, 0xBC), (0xFFFD, 0x01), (0xFFFE, 0x02)] { State.reset with x := 0xFF })) =
      some ⟨0xFFFF, 0x00, 0xFF, 0x41, false, false, .running 5 0⟩ := by decide

/-- R47 with R67 and R75: `Load(X, ZeroPageX)`, which no row of R45 has, indexes with the `X` before the load (2 + 3 = 5). -/
theorem test_offTable_ldx_zeroPageX :
    look (stepWith { opmap := fun _ => some (.load .x .zeroPageX) }
      (started 4 [(0x0005, 0x80), (0x0082, 0xEE), (0xFFFC, 0x07), (0xFFFD, 0x02)] { State.reset with x := 0x03 })) =
      some ⟨0xFFFE, 0x00, 0x80, 0x00, false, true, .running 4 0⟩ := by decide

theorem test_decode_names_offTable :
    decode (fun _ => some (.load .y .indirectY)) [0x07, 0x02, 0x00] = .error (.offTable .y .indirectY) := by decide

/-- Vector N1. -/
theorem test_nop_N1 :
    look (step (started 2 [(0xFFFC, 0xEA)] State.reset)) =
      some ⟨0xFFFD, 0x00, 0x00, 0x00, false, false, .running 2 0⟩ := by decide

/-- Vector N2: PC wraps. -/
theorem test_nop_N2 :
    look (step (started 2 [(0xFFFF, 0xEA)] { State.reset with pc := 0xFFFF })) =
      some ⟨0x0000, 0x00, 0x00, 0x00, false, false, .running 2 0⟩ := by decide

/-- Every flag but `Z` preset, `A` nonzero. -/
def flagged : State := { State.reset with
  a := 0x55, flags := { c := true, z := false, i := true, d := true, b := true, v := true, n := true } }

/-- The flags of a next state. -/
def lookFlags : Result → Option Flags
  | .next t => some t.flags
  | .fault _ => none
  | .refused _ => none

/-- Vector F1. -/
theorem test_ldaImm_F1 : lookFlags (step (started 2 [(0xFFFC, 0xA9), (0xFFFD, 0x00)] flagged)) =
    some { c := true, z := true, i := true, d := true, b := true, v := true, n := false } := by decide

/-- Vector F3's loaded value, from F1's flags. -/
theorem test_ldyImm_F3 : lookFlags (step (started 2 [(0xFFFC, 0xA0), (0xFFFD, 0x80)] flagged)) =
    some { c := true, z := false, i := true, d := true, b := true, v := true, n := true } := by decide

/-- Vector J1 (S6 as the spec corrects it). -/
theorem test_jsr_J1 : lookMem [0x01FF, 0x0200, 0x01FE, 0x0100]
    (step (started 6 [(0xFFFC, 0x20), (0xFFFD, 0x42), (0xFFFE, 0x42)] State.reset)) =
      some (0x4242, 0xFE, [0xFE, 0xFF, 0x00, 0x00]) := by decide

/-- Vector J3: operands across the top of memory, return address 0x0000 over bytes that were not. -/
theorem test_jsr_J3 : lookMem [0x0180, 0x0181]
    (step (started 6 [(0xFFFE, 0x20), (0xFFFF, 0x34), (0x0000, 0x12), (0x0180, 0xEE), (0x0181, 0xEE)]
      { State.reset with pc := 0xFFFE, sp := 0x80 })) = some (0x1234, 0x7F, [0x00, 0x00]) := by decide

/-- Vector U1, its one step: `Signal` on the zeros of reset. -/
theorem test_unassigned_U1 : step (started 10 [] State.reset) = .next { State.reset with
    pc := 0xFFFD, lastStatus := .illegalOpcode, lastConsumed := 1, lastIllegalOp := 0x00, lastIllegalAddr := 0xFFFC } := by
  rfl

/-- Vector U5: `Nop` consumes no operand byte. -/
theorem test_unassigned_U5 :
    look (stepWith { unassignedPolicy := .nop } (started 1 [(0xFFFC, 0xAF), (0xFFFD, 0x84)] State.reset)) =
      some ⟨0xFFFD, 0x00, 0x00, 0x00, false, false, .running 1 (-1)⟩ := by decide

/-- Vector S7: a zero budget, with its start and its end. -/
theorem test_zero_budget_S7 : core.run 2 { State.reset with host := [.execute 0] } = .next State.reset := by rfl

/-- Vector S8: budget 1 on a 2-cycle instruction, with its start and its end, reports 2. -/
theorem test_short_budget_S8 :
    (match core.run 3 { started 0 [(0xFFFC, 0xA9), (0xFFFD, 0x84)] State.reset with phase := .idle, host := [.execute 1] } with
      | .next t => (t.a, t.pc, t.phase, t.lastStatus, t.lastConsumed)
      | _ => (0x00, 0x0000, .idle, .ok, 0)) = (0x84, 0xFFFE, .idle, .ok, 2) := by decide

/-- Vector R2: `reset` clears memory. -/
theorem test_reset_clears_memory_R2 :
    core.run 2 { State.reset with host := [.memWrite 0x1234 0xAB, .reset] } = .next State.reset := by rfl

/-- Vector R4: a host write of `A` does not run `SetZN`. -/
theorem test_host_write_R4 :
    core.run 2 { State.reset with host := [.regWrite (.a 0x80), .regRead (.flag .n)] } =
      .next { State.reset with a := 0x80, hostOut := some (.reg (.flag .n false)) } := by rfl

/-! ## Witnesses: for each statement with hypotheses, a concrete state and operands that meet all of them -/

/-- A state before the first reset, with an `execute` pending. -/
def unreset : State := { State.reset with resetDone := false, host := [.execute 1] }

/-- Idle after reset with one host operation pending. -/
def asking (op : HostOp) : State := { State.reset with host := [op] }

/-- Running `JSR $4242` at 0xFFFC, with memory of its own at the target. -/
def calling : State := started 20 [(0xFFFC, 0x20), (0xFFFD, 0x42), (0xFFFE, 0x42), (0x4242, 0x20)] State.reset

/-- Running with its budget spent. -/
def spent : State := { State.reset with phase := .running 6 (-5) }

theorem witness_ResetOperationReachesTheResetState :
    (asking .reset).phase = .idle ∧ (asking .reset).host = .reset :: [] ∧
    ({ State.reset with host := [.reset, .reset] } : State).host = .reset :: .reset :: [] := by decide

theorem witness_StartOfExecute_before_reset :
    unreset.phase = .idle ∧ unreset.host = .execute 1 :: [] ∧ unreset.resetDone = false := by decide

theorem witness_StartOfExecute_out_of_range :
    (asking (.execute 2147483643)).phase = .idle ∧ (asking (.execute 2147483643)).resetDone = true ∧
    Config.default.cycleW = some 32 ∧ (2 : Int) ^ (32 - 1) - 6 < 2147483643 := by decide

theorem witness_StartOfExecute_in_range :
    (asking (.execute 2147483642)).phase = .idle ∧ (asking (.execute 2147483642)).resetDone = true ∧
    Config.default.cycleW = some 32 ∧ (2147483642 : Int) ≤ 2 ^ (32 - 1) - 6 := by decide

theorem witness_StartOfExecute_unbounded : ({ cycleW := none } : Config).cycleW = none := by decide

theorem witness_HostMemoryAccess :
    (asking (.memRead 0xFFFF)).phase = .idle ∧ (asking (.memRead 0xFFFF)).host = .memRead 0xFFFF :: [] ∧
    (asking (.memWrite 0x0000 0x7F)).phase = .idle ∧ (asking (.memWrite 0x0000 0x7F)).host = .memWrite 0x0000 0x7F :: [] ∧
    (asking .reset).phase = .idle ∧ (asking .reset).host = .reset :: [] ∧
    spent.phase = .running 6 (-5) := by decide

theorem witness_HostRegisterAccess :
    (asking (.regWrite (.flag .c true))).phase = .idle ∧
    (asking (.regWrite (.flag .c true))).host = .regWrite (.flag .c true) :: [] ∧
    (asking (.regRead (.flag .n))).host = .regRead (.flag .n) :: [] ∧
    ({ hostRegAccess := .readOnly } : Config).hostRegAccess = .readOnly ∧ Config.default.hostRegAccess = .readWrite := by
  decide

theorem witness_HostHasNoMoveWhileRunning : calling.phase = .running 20 20 := by decide

theorem witness_IdleWithoutOperationChangesNothing : State.reset.phase = .idle ∧ State.reset.host = [] := by decide

theorem calling_fetches : calling.fetches := ⟨20, 20, rfl, by decide⟩

theorem witness_StepRunsTheDecodedInstruction :
    calling.fetches ∧ decode Config.default.opmap
      [memRead calling.mem calling.pc, memRead calling.mem (calling.pc + 1), memRead calling.mem (calling.pc + 2)] =
        .ok (.jsr 0x4242, []) :=
  ⟨calling_fetches, by decide⟩

theorem witness_LoopEndsWhenBudgetIsSpent : spent.phase = .running 6 (-5) ∧ (-5 : Int) ≤ 0 := by decide

theorem witness_SpentBudgetRunsNothing :
    (asking (.execute 0)).phase = .idle ∧ (asking (.execute 0)).resetDone = true ∧
    (asking (.execute 0)).host = .execute 0 :: [] ∧ budgetFits Config.default.cycleW 0 = true ∧
    (asking (.execute (-3))).host = .execute (-3) :: [] ∧ budgetFits Config.default.cycleW (-3) = true := by decide

theorem witness_BudgetOfOneRunsOneInstruction :
    (asking (.execute 1)).phase = .idle ∧ (asking (.execute 1)).resetDone = true ∧
    (asking (.execute 1)).host = .execute 1 :: [] ∧ budgetFits Config.default.cycleW 1 = true := by decide

theorem witness_InstructionsDoNotReadTheCounter :
    (0 : Int) < 1 ∧ (0 : Int) < 6 ∧ Config.default.opmap (memRead calling.mem calling.pc) = some .jsr := by decide

theorem witness_ConsumptionWithinFiveOfTheBudget :
    spent.Inv ∧ spent.phase = .running 6 (-5) ∧ (-5 : Int) ≤ 0 ∧ (1 : Int) ≤ 6 :=
  ⟨⟨by decide, ⟨by decide, .inr (by decide)⟩, fun _ => rfl, by decide⟩, by decide⟩

theorem witness_ExecuteAlwaysReturns : calling.phase = .running 20 20 := by decide

theorem witness_StepFollowsThePseudocode : calling.fetches := calling_fetches

theorem witness_StepsFollowTheExecuteLoop :
    specLoop Config.default 2 (started 10 [] State.reset) = some { State.reset with
      pc := 0xFFFD, lastStatus := .illegalOpcode, lastConsumed := 1, lastIllegalOp := 0x00, lastIllegalAddr := 0xFFFC } := by
  rfl

theorem witness_StepKeepsTheInvariant :
    spent.Inv ∧ stepWith Config.default spent = .next (finishExecute .ok spent) :=
  ⟨witness_ConsumptionWithinFiveOfTheBudget.1, by rfl⟩

theorem witness_StepChargesTheTableTotal :
    calling.phase = .running 20 20 ∧ (0 : Int) < 20 ∧
    decode Config.default.opmap (instructionBytes calling) = .ok (.jsr 0x4242, []) := by decide

/-- Running the opcode byte `op` at 0xFFFC, with operand bytes 0xFF and 0xFF and both index registers 0xFF: every sum of the
addressing modes at its edge. -/
def edge (op : Byte) : State :=
  started 1 [(0xFFFC, op), (0xFFFD, 0xFF), (0xFFFE, 0xFF)] { State.reset with x := 0xFF, y := 0xFF }

theorem witness_ImmediateLoads :
    AtSlot Config.default (edge 0xA9) 1 1 (.load .a .immediate) ∧
    AtSlot Config.default (edge 0xA2) 1 1 (.load .x .immediate) ∧
    AtSlot Config.default (edge 0xA0) 1 1 (.load .y .immediate) :=
  ⟨⟨rfl, by decide, by decide⟩, ⟨rfl, by decide, by decide⟩, ⟨rfl, by decide, by decide⟩⟩

theorem witness_ZeroPageLoads :
    AtSlot Config.default (edge 0xA5) 1 1 (.load .a .zeroPage) ∧
    AtSlot Config.default (edge 0xA6) 1 1 (.load .x .zeroPage) ∧
    AtSlot Config.default (edge 0xA4) 1 1 (.load .y .zeroPage) :=
  ⟨⟨rfl, by decide, by decide⟩, ⟨rfl, by decide, by decide⟩, ⟨rfl, by decide, by decide⟩⟩

theorem witness_ZeroPageXLoads :
    AtSlot Config.default (edge 0xB5) 1 1 (.load .a .zeroPageX) ∧
    AtSlot Config.default (edge 0xB4) 1 1 (.load .y .zeroPageX) :=
  ⟨⟨rfl, by decide, by decide⟩, ⟨rfl, by decide, by decide⟩⟩

theorem witness_ZeroPageYLoad :
    AtSlot Config.default (edge 0xB6) 1 1 (.load .x .zeroPageY) :=
  ⟨rfl, by decide, by decide⟩

theorem witness_AbsoluteLoads :
    AtSlot Config.default (edge 0xAD) 1 1 (.load .a .absolute) ∧
    AtSlot Config.default (edge 0xAE) 1 1 (.load .x .absolute) ∧
    AtSlot Config.default (edge 0xAC) 1 1 (.load .y .absolute) :=
  ⟨⟨rfl, by decide, by decide⟩, ⟨rfl, by decide, by decide⟩, ⟨rfl, by decide, by decide⟩⟩

theorem witness_AbsoluteXLoads :
    AtSlot Config.default (edge 0xBD) 1 1 (.load .a .absoluteX) ∧
    AtSlot Config.default (edge 0xBC) 1 1 (.load .y .absoluteX) :=
  ⟨⟨rfl, by decide, by decide⟩, ⟨rfl, by decide, by decide⟩⟩

theorem witness_AbsoluteYLoads :
    AtSlot Config.default (edge 0xB9) 1 1 (.load .a .absoluteY) ∧
    AtSlot Config.default (edge 0xBE) 1 1 (.load .x .absoluteY) :=
  ⟨⟨rfl, by decide, by decide⟩, ⟨rfl, by decide, by decide⟩⟩

theorem witness_IndirectXLoad :
    AtSlot Config.default (edge 0xA1) 1 1 (.load .a .indirectX) :=
  ⟨rfl, by decide, by decide⟩

theorem witness_IndirectYLoad :
    AtSlot Config.default (edge 0xB1) 1 1 (.load .a .indirectY) :=
  ⟨rfl, by decide, by decide⟩

/-- A configuration whose `OPMAP` assigns one handler to every byte. -/
def only (h : Handler) : Config := { opmap := fun _ => some h }

/-- The clauses of the mode statements for pairs that no row of R45 has. -/
theorem witness_loads_offTable :
    AtSlot (only (.load .x .zeroPageX)) (edge 0x00) 1 1 (.load .x .zeroPageX) ∧
    AtSlot (only (.load .x .absoluteX)) (edge 0x00) 1 1 (.load .x .absoluteX) ∧
    AtSlot (only (.load .y .indirectY)) (edge 0x00) 1 1 (.load .y .indirectY) :=
  ⟨⟨rfl, by decide, rfl⟩, ⟨rfl, by decide, rfl⟩, ⟨rfl, by decide, rfl⟩⟩

theorem witness_EveryLoadPairRunsTheLoadHandler :
    AtSlot (only (.load .y .absoluteY)) (edge 0x00) 1 1 (.load .y .absoluteY) ∧
    (resolve .absoluteY (fetchedByte (edge 0x00))).1 = 0x00 :=
  ⟨⟨rfl, by decide, rfl⟩, by decide⟩

theorem witness_EveryAssignedOpcodeIsDecodedOrNamed :
    (only (.load .x .indirectX)).opmap 0x00 = some (.load .x .indirectX) ∧ standardOpmap 0xB1 = some (.load .a .indirectY) :=
  ⟨rfl, by decide⟩

theorem witness_JsrPushesAndJumps :
    AtSlot Config.default (edge 0x20) 1 1 .jsr :=
  ⟨rfl, by decide, by decide⟩

theorem witness_NopOnlyTakesTwoCycles :
    AtSlot Config.default (edge 0xEA) 1 1 .nop :=
  ⟨rfl, by decide, by decide⟩

theorem witness_UnassignedOpcodeSignals :
    Config.default.unassignedPolicy = .signal ∧ (started 10 [] State.reset).phase = .running 10 10 ∧ (0 : Int) < 10 ∧
    Config.default.opmap (memRead (started 10 [] State.reset).mem (started 10 [] State.reset).pc) = none := by decide

theorem witness_UnassignedOpcodeIsSkipped :
    ({ unassignedPolicy := .nop } : Config).unassignedPolicy = .nop ∧
    (started 10 [] State.reset).phase = .running 10 10 ∧ (0 : Int) < 10 ∧
    ({ unassignedPolicy := .nop } : Config).opmap (memRead (started 10 [] State.reset).mem 0xFFFC) = none := by decide

theorem witness_SafeRunsDoNotDependOnThePolicy :
    SafeFor { Config.default with unassignedPolicy := .signal } 2 (edge 0xEA) :=
  ⟨fun h => absurd h.2 (by decide), _, rfl, fun h => by obtain ⟨⟨_, _, hp, hc⟩, _⟩ := h; cases hp; exact absurd hc (by decide),
    _, rfl, trivial⟩

theorem witness_OnlyLoadsChangeFlags :
    calling.phase ≠ .idle ∧ stepWith Config.default calling = .next (specStep Config.default calling) ∧
    (∀ r m, Config.default.opmap (memRead calling.mem calling.pc) ≠ some (.load r m)) :=
  ⟨by decide, by rfl, fun r m => by
    rw [show Config.default.opmap (memRead calling.mem calling.pc) = some .jsr by decide]
    intro h
    cases h⟩

theorem witness_OnlyJsrChangesStackPointerAndMemory :
    (edge 0xA9).phase ≠ .idle ∧ stepWith Config.default (edge 0xA9) = .next (specStep Config.default (edge 0xA9)) ∧
    Config.default.opmap (memRead (edge 0xA9).mem (edge 0xA9).pc) ≠ some .jsr :=
  ⟨by decide, by rfl, by decide⟩

theorem witness_ProgramCounterFollowsTheInstruction :
    spent.phase = .running 6 (-5) ∧ stepWith Config.default spent = .next (finishExecute .ok spent) ∧
    (edge 0x20).phase = .running 1 1 ∧
    stepWith Config.default (edge 0x20) = .next (specStep Config.default (edge 0x20)) :=
  ⟨by decide, by rfl, by decide, by rfl⟩

theorem witness_LoadFlagsInvariantAndFrame : destination (.ldxZpY 0x80) = some .x := by decide

theorem witness_SetZNFollowsTheValue :
    destination (.ldaIndY 0xFF) = some .a ∧ destination (.jsr 0x4242) = none ∧ destination .nop = none := by decide

theorem witness_SuccessiveJsrsOverlap :
    calling.fetches ∧ Config.default.opmap (memRead calling.mem calling.pc) = some .jsr ∧
    ∃ t u, stepWith Config.default calling = .next t ∧ t.fetches ∧
      Config.default.opmap (memRead t.mem t.pc) = some .jsr ∧ stepWith Config.default t = .next u ∧ calling.sp ≠ 0x00 :=
  ⟨calling_fetches, by decide, _, _, rfl, ⟨20, 14, rfl, by decide⟩, by decide, rfl, by decide⟩

theorem witness_SuccessiveJsrsOverlap_wrapped :
    ∃ t u, stepWith Config.default { calling with sp := 0x00 } = .next t ∧ t.fetches ∧
      Config.default.opmap (memRead t.mem t.pc) = some .jsr ∧ stepWith Config.default t = .next u :=
  ⟨_, _, rfl, ⟨20, 14, rfl, by decide⟩, by decide, rfl⟩

/-- Running `JSR` to the address `hi:lo` at 0xFFFC with `SP = 0xFF`. -/
def callingTo (hi lo : Byte) : State := started 6 [(0xFFFC, 0x20), (0xFFFD, lo), (0xFFFE, hi)] State.reset

/-- Vector J6: the target is a byte JSR writes; and the other byte. -/
theorem witness_FetchSeesTheBytesJsrWrote :
    ((callingTo 0x01 0xFF).fetches ∧
      Config.default.opmap (memRead (callingTo 0x01 0xFF).mem (callingTo 0x01 0xFF).pc) = some .jsr ∧
      operandWord (callingTo 0x01 0xFF) = stackAddress (callingTo 0x01 0xFF).sp) ∧
    ((callingTo 0x02 0x00).fetches ∧
      Config.default.opmap (memRead (callingTo 0x02 0x00).mem (callingTo 0x02 0x00).pc) = some .jsr ∧
      operandWord (callingTo 0x02 0x00) = stackAddress (callingTo 0x02 0x00).sp + 1) :=
  ⟨⟨⟨6, 6, rfl, by decide⟩, by decide, by decide⟩, ⟨⟨6, 6, rfl, by decide⟩, by decide, by decide⟩⟩

theorem witness_CanonicalMemoriesAreExtensional : Memory.wf calling.mem ∧ Memory.wf [] := by decide

theorem witness_DecodeOfEncode : Instr.wf (.jsr 0x4242) = true := by decide

theorem witness_EncodeOfDecode : decode standardOpmap [0x20, 0x42, 0x43, 0x00] = .ok (.jsr 0x4342, [0x00]) := by decide

end Sys2Proof.Machine.Tests
end

/-! PROOFS. `SetZN` and who applies it (10_state.md section 3, R14). The lemmas up to the last theorem say, for other proofs
to cite, what any load does and what the other handlers do to the flags. -/

namespace Sys2Proof.Machine

/-! ## What `SetZN` writes -/

/-- The sign bit read as a comparison, the form of the spec's table in R14. -/
theorem getLsbD_seven_eq_decide (v : Byte) : v.getLsbD 7 = decide (128 ≤ v.toNat) :=
  (BitVec.msb_eq_getLsbD_last v).symm.trans (BitVec.msb_eq_decide v)

theorem znFlags_eq_loadedFlags (v : Byte) (f : Flags) : znFlags v f = loadedFlags v f := by
  simp only [znFlags, loadedFlags, getLsbD_seven_eq_decide, beq_eq_decide]

theorem setZN_eq (v : Byte) (s : State) : setZN v s = { s with flags := loadedFlags v s.flags } := by
  rw [setZN, znFlags_eq_loadedFlags]

/-- The three rows of R14's table. -/
theorem loadedFlags_zn (v : Byte) (f : Flags) :
    ((loadedFlags v f).z, (loadedFlags v f).n) =
      if v.toNat = 0 then (true, false) else if v.toNat ≤ 127 then (false, false) else (false, true) := by
  have hz : v = 0x00 ↔ v.toNat = 0 := BitVec.toNat_inj.symm
  simp only [loadedFlags, hz]
  split
  · next h => simp [h]
  · next h =>
    split
    · next h7 => simp [h, show ¬ 128 ≤ v.toNat by omega]
    · next h7 => simp [h, show 128 ≤ v.toNat by omega]

/-! ## The loads -/

@[simp] theorem readReg_loadReg (r : Reg) (v : Byte) (s : State) : readReg r (loadReg r (v, s)) = v := by
  cases r <;> rfl

@[simp] theorem loadReg_flags (r : Reg) (v : Byte) (s : State) : (loadReg r (v, s)).flags = znFlags v s.flags := by
  rw [loadReg_eq]

/-- Every load of R45, whatever its mode, moves `PC` past its operand bytes, charges some cycles and then loads some byte
into its destination (R64, R75). -/
theorem exec_load {i : Instr} {r : Reg} (h : destination i = some r) (s : State) :
    ∃ v n, exec i s = .next (loadReg r (v, tick n (setPc (s.pc + BitVec.ofNat 16 (instrLength i - 1)) s))) := by
  cases i with
  | ldaImm d8 | ldxImm d8 | ldyImm d8 =>
    cases h
    exact ⟨d8, 1, rfl⟩
  | ldaZp d8 | ldxZp d8 | ldyZp d8 =>
    cases h
    simp only [exec, execLdaZp, execLdxZp, execLdyZp, zeroPageOperand_eq, fetchedByte, tick_tick]
    exact ⟨_, _, rfl⟩
  | ldaZpX d8 | ldxZpY d8 | ldyZpX d8 =>
    cases h
    simp only [exec, execLdaZpX, execLdxZpY, execLdyZpX, zeroPageIndexedOperand_eq, fetchedByte, tick_tick]
    exact ⟨_, _, rfl⟩
  | ldaAbs nn | ldxAbs nn | ldyAbs nn =>
    cases h
    simp only [exec, execLdaAbs, execLdxAbs, execLdyAbs, absoluteOperand_eq, fetchedWord, tick_tick]
    exact ⟨_, _, rfl⟩
  | ldaAbsX nn | ldaAbsY nn | ldxAbsY nn | ldyAbsX nn =>
    cases h
    simp only [exec, execLdaAbsX, execLdaAbsY, execLdxAbsY, execLdyAbsX, absoluteIndexedOperand_eq, fetchedWord, tick_tick]
    exact ⟨_, _, rfl⟩
  | ldaIndX d8 =>
    cases h
    simp only [exec, execLdaIndX, indirectXOperand_eq, fetchedByte, tick_tick]
    exact ⟨_, _, rfl⟩
  | ldaIndY d8 =>
    cases h
    simp only [exec, execLdaIndY, indirectYOperand_eq, fetchedByte, tick_tick]
    exact ⟨_, _, rfl⟩
  | jsr nn | nop => cases h

/-- A load leaves the flags that `SetZN` gives for the value then in its register (R14, R76). -/
theorem exec_load_flags {i : Instr} {r : Reg} (h : destination i = some r) (s : State) :
    ∃ t, exec i s = .next t ∧ t.flags = (setZN (readReg r t) s).flags := by
  obtain ⟨v, n, ht⟩ := exec_load h s
  exact ⟨_, ht, by simp⟩

/-! ## JSR, NOP and the unassigned opcodes -/

@[simp] theorem jsrTo_flags (target : Addr) (s : State) : (jsrTo target s).flags = s.flags := by
  rw [jsrTo_eq]

/-- An instruction that loads no register leaves the flags as they were: it is JSR or NOP (R14). -/
theorem exec_keeps_flags {i : Instr} (h : destination i = none) (s : State) :
    ∃ t, exec i s = .next t ∧ t.flags = s.flags := by
  cases i with
  | jsr nn => exact ⟨_, rfl, jsrTo_flags nn (fetchedWord s)⟩
  | nop => exact ⟨_, rfl, tick_flags 1 s⟩
  | _ => cases h

@[simp] theorem finishExecute_flags (st : Status) (s : State) : (finishExecute st s).flags = s.flags := by
  cases h : s.phase with
  | idle => rw [finishExecute_idle st h]
  | running req cyc => rw [finishExecute_running st h]

@[simp] theorem unassignedOpcode_flags (p : UnassignedPolicy) (op : Byte) (opaddr : Addr) (s : State) :
    (unassignedOpcode p op opaddr s).flags = s.flags := by
  cases p with
  | nop => exact tick_flags 1 s
  | signal => exact finishExecute_flags .illegalOpcode s

/-! ## The obligation -/

/-- Settles O45: `SetZN` by its table, the loads through `exec_load`, and the rest by what they do to the flags. -/
theorem setZNFollowsTheValue : Obligations.SetZNFollowsTheValue := by
  intro s
  refine ⟨fun v => ⟨setZN_eq v s, ?_⟩, fun i r h => exec_load_flags h s, fun i h => exec_keeps_flags h s,
    fun p op opaddr => unassignedOpcode_flags p op opaddr s⟩
  rw [setZN_eq]
  exact loadedFlags_zn v s.flags

end Sys2Proof.Machine

/-! PROOFS. The addressing modes, as whole loads from the opcode fetch on (41_addressing_modes.md, R65 to R71). A mode's
statement is what `resolve` answers for it, put into the one lemma that says what a step does on a load slot. -/

namespace Sys2Proof.Machine

/-! ## A step on a load slot runs the load handler -/

/-- The decoded instruction's handler, which is given its operand, is the load handler of R75, which fetches it. -/
theorem exec_readOperands_load {r : Reg} {m : Mode} {f : Form} {i : Instr} {rest : List Byte} {s : State}
    (hf : opForm (.load r m) = .ok f)
    (hi : readOperands f [memRead s.mem s.pc, memRead s.mem (s.pc + 1)] = .ok (i, rest)) :
    exec i s = .next (loadHandler r m s) := by
  cases m with
  | immediate | zeroPage | zeroPageX | zeroPageY | indirectX | indirectY =>  -- `fetchByte` reads what format F2 gives
    cases r <;> cases hf <;> cases hi <;> rfl
  | absolute | absoluteX | absoluteY =>  -- `fetchWord` reads what format F3 gives
    cases r <;> cases hf <;> cases hi <;> rfl

/-- With or without a row in R45, an opcode byte assigned to a load runs the load handler (R47, R75). -/
theorem runInstruction_load {c : Config} {s : State} {r : Reg} {m : Mode}
    (ho : c.opmap (memRead s.mem s.pc) = some (.load r m)) :
    runInstruction c s = .next (loadHandler r m (fetchedByte s)) := by
  rcases opForm_cases (.load r m) with ⟨_, _, f, hf⟩ | ⟨r', m', he, hf⟩
  · obtain ⟨⟨i, rest⟩, hi⟩ := readOperands_two f (memRead s.mem (s.pc + 1)) (memRead s.mem (s.pc + 2))
    have hpc : (fetchedByte s).pc + 1 = s.pc + 2 := BitVec.add_assoc s.pc 1 1
    have hd : decode c.opmap (instructionBytes s) = .ok (i, rest) := (decode_instructionBytes_assigned ho hf).trans hi
    simp only [runInstruction, hd]
    exact exec_readOperands_load hf (by rw [hpc]; exact hi)
  · cases he
    simp only [runInstruction, decode_instructionBytes_offTable ho hf]

/-- What a step does on a load slot, given all that its mode's `Resolve` does: the operand, the new `PC` and the whole
charge, opcode fetch included. -/
theorem stepWith_load {c : Config} {s : State} {req cyc : Int} {r : Reg} {m : Mode} {v : Byte} {n : Nat} {pc : Addr}
    (h : AtSlot c s req cyc (.load r m)) (hv : resolve m (fetchedByte s) = (v, tick n (setPc pc s))) :
    stepWith c s = .next { writeReg r v s with
      flags := loadedFlags v s.flags, pc := pc, phase := .running req (cyc - n) } := by
  obtain ⟨hrun, hpos, hop⟩ := h
  rw [stepWith_running hrun hpos, runInstruction_load hop, loadHandler, hv, loadReg_eq, znFlags_eq_loadedFlags]
  cases r <;> simp [writeReg, tick, setPc, hrun]

/-! ## What `Resolve` does in each mode, after the opcode fetch -/

theorem fetchByte_fetchedByte (s : State) :
    fetchByte (fetchedByte s) = (operandByte s, tick 2 (setPc (s.pc + 2) s)) := by
  simp [fetchByte, fetchedByte, operandByte, tick, setPc, BitVec.add_assoc]

theorem fetchWord_fetchedByte (s : State) :
    fetchWord (fetchedByte s) = (operandWord s, tick 3 (setPc (s.pc + 3) s)) := by
  simp [fetchWord, fetchedWord, fetchedByte, operandWord, tick, setPc, BitVec.add_assoc]

theorem resolve_zeroPage (s : State) :
    resolve .zeroPage (fetchedByte s) = (memRead s.mem (zext16 (operandByte s)), tick 3 (setPc (s.pc + 2) s)) := by
  simp [resolve, fetchByte_fetchedByte, zeroPageOperand_eq]

theorem resolve_zeroPageX (s : State) :
    resolve .zeroPageX (fetchedByte s) =
      (memRead s.mem (zeroPageSum (operandByte s) s.x), tick 4 (setPc (s.pc + 2) s)) := by
  simp [resolve, fetchByte_fetchedByte, zeroPageIndexedOperand_eq]

theorem resolve_zeroPageY (s : State) :
    resolve .zeroPageY (fetchedByte s) =
      (memRead s.mem (zeroPageSum (operandByte s) s.y), tick 4 (setPc (s.pc + 2) s)) := by
  simp [resolve, fetchByte_fetchedByte, zeroPageIndexedOperand_eq]

theorem resolve_absolute (s : State) :
    resolve .absolute (fetchedByte s) = (memRead s.mem (operandWord s), tick 4 (setPc (s.pc + 3) s)) := by
  simp [resolve, fetchWord_fetchedByte, absoluteOperand_eq]

theorem resolve_absoluteX (s : State) :
    resolve .absoluteX (fetchedByte s) =
      (memRead s.mem (indexSum (operandWord s) s.x),
        tick (3 + ((pageCrossed (operandWord s) (indexSum (operandWord s) s.x)).toNat + 1)) (setPc (s.pc + 3) s)) := by
  simp [resolve, fetchWord_fetchedByte, absoluteIndexedOperand_eq]

theorem resolve_absoluteY (s : State) :
    resolve .absoluteY (fetchedByte s) =
      (memRead s.mem (indexSum (operandWord s) s.y),
        tick (3 + ((pageCrossed (operandWord s) (indexSum (operandWord s) s.y)).toNat + 1)) (setPc (s.pc + 3) s)) := by
  simp [resolve, fetchWord_fetchedByte, absoluteIndexedOperand_eq]

/-! ## Effective addresses and the page crossing as arithmetic -/

theorem zext16_eq_ofNat (v : Byte) : zext16 v = BitVec.ofNat 16 v.toNat :=
  (BitVec.ofNat_toNat 16 v).symm

/-- The zero-page sum wraps at 256 (R67, R68). -/
theorem zeroPageSum_eq_ofNat (d8 idx : Byte) :
    zeroPageSum d8 idx = BitVec.ofNat 16 ((d8.toNat + idx.toNat) % 256) := by
  rw [zeroPageSum, zext16_eq_ofNat, BitVec.toNat_add]

/-- The absolute sum wraps at 65536, and not at its page (R70, R71). -/
theorem indexSum_eq_ofNat (base : Addr) (idx : Byte) :
    indexSum base idx = BitVec.ofNat 16 ((base.toNat + idx.toNat) % 65536) := by
  apply BitVec.eq_of_toNat_eq
  rw [indexSum, BitVec.toNat_add, zext16_toNat, BitVec.toNat_ofNat, Nat.mod_mod]

/-- The model's crossing test charges what R74 says. -/
theorem pageCrossed_toNat (base ea : Addr) : (pageCrossed base ea).toNat = crossingCycles base ea := by
  have hhi : hiByte base = hiByte ea ↔ base.toNat / 256 = ea.toNat / 256 := by
    rw [← BitVec.toNat_inj, hiByte_toNat, hiByte_toNat]
  by_cases h : base.toNat / 256 = ea.toNat / 256
  · simp [pageCrossed, crossingCycles, h, hhi.2 h]
  · simp [pageCrossed, crossingCycles, h, mt hhi.1 h]

/-- The total of an absolute indexed load: 4 cycles, 5 on a page crossing (R64). -/
theorem absoluteIndexed_cycles (base ea : Addr) :
    ((3 + ((pageCrossed base ea).toNat + 1) : Nat) : Int) = if base.toNat / 256 = ea.toNat / 256 then 4 else 5 := by
  rw [pageCrossed_toNat, crossingCycles]
  split <;> rfl

/-! ## The obligations -/

/-- Settles O20: the operand is what a second `FetchByte()` returns. -/
theorem immediateLoads : Obligations.ImmediateLoads := by
  intro c s req cyc r h
  exact stepWith_load h (fetchByte_fetchedByte s)

/-- Settles O21: the address is the operand byte, zero-extended. -/
theorem zeroPageLoads : Obligations.ZeroPageLoads := by
  rintro c s req cyc r _ h rfl
  rw [← zext16_eq_ofNat]
  exact stepWith_load h (resolve_zeroPage s)

/-- Settles O22: the index is the `X` that `Resolve` reads, before the load writes its register. -/
theorem zeroPageXLoads : Obligations.ZeroPageXLoads := by
  rintro c s req cyc r _ h rfl
  rw [← zeroPageSum_eq_ofNat]
  exact stepWith_load h (resolve_zeroPageX s)

/-- Settles O23: as O22, with `Y`. -/
theorem zeroPageYLoad : Obligations.ZeroPageYLoad := by
  rintro c s req cyc r _ h rfl
  rw [← zeroPageSum_eq_ofNat]
  exact stepWith_load h (resolve_zeroPageY s)

/-- Settles O24: the address is the operand word itself. -/
theorem absoluteLoads : Obligations.AbsoluteLoads := by
  rintro c s req cyc r _ h rfl
  exact stepWith_load h (resolve_absolute s)

/-- Settles O25: the statement's sum is the model's, and the crossing test its comparison of high bytes. -/
theorem absoluteXLoads : Obligations.AbsoluteXLoads := by
  rintro c s req cyc r _ _ h rfl rfl
  rw [← indexSum_eq_ofNat, ← absoluteIndexed_cycles]
  exact stepWith_load h (resolve_absoluteX s)

/-- Settles O26: as O25, with `Y`. -/
theorem absoluteYLoads : Obligations.AbsoluteYLoads := by
  rintro c s req cyc r _ _ h rfl rfl
  rw [← indexSum_eq_ofNat, ← absoluteIndexed_cycles]
  exact stepWith_load h (resolve_absoluteY s)

end Sys2Proof.Machine

/-! PROOFS. What all loads have in common (42_load.md section 1, R76): `exec_load` says what a load writes; that it reads
nothing it overwrites is shown here. -/

namespace Sys2Proof.Machine

theorem readReg_loadReg_other {q r : Reg} (h : q ≠ r) (v : Byte) (s : State) :
    readReg q (loadReg r (v, s)) = readReg q s := by
  revert h
  cases r <;> cases q <;> simp [readReg, loadReg]

/-- What a load overwrites it does not read: no mode reads a flag, and no row of R45 indexes by its own destination (a pair
without a row may, R75). -/
theorem exec_load_ignores_overwritten {i : Instr} {r : Reg} (h : destination i = some r) (s : State) (w : Byte) (z n : Bool) :
    exec i { writeReg r w s with flags := { s.flags with z := z, n := n } } = exec i s := by
  cases i with
  | ldaImm d8 | ldaZp d8 | ldaAbs nn | ldxImm d8 | ldxZp d8 | ldxAbs nn | ldyImm d8 | ldyZp d8 | ldyAbs nn =>
    cases h
    rfl
  | ldaZpX d8 | ldxZpY d8 | ldyZpX d8 | ldaIndX d8 =>  -- the index is another register's
    cases h
    rfl
  | ldaAbsX nn | ldaAbsY nn | ldxAbsY nn | ldyAbsX nn =>  -- and so is the one that decides the crossing cycle
    cases h
    simp only [exec, execLdaAbsX, execLdaAbsY, execLdxAbsY, execLdyAbsX, absoluteIndexedOperand_eq]
    rfl
  | ldaIndY d8 =>
    cases h
    simp only [exec, execLdaIndY, indirectYOperand_eq]
    rfl
  | jsr nn | nop => cases h

/-- Settles O34: the next state is that of `exec_load`, so its frame is `writeReg`'s; the last clause is
`exec_load_ignores_overwritten`. -/
theorem loadFlagsInvariantAndFrame : Obligations.LoadFlagsInvariantAndFrame := by
  intro i r s h
  obtain ⟨v, k, ht⟩ := exec_load h s
  rw [loadReg_eq] at ht
  refine ⟨_, v, ht, ?_, fun q hq => ?_, beq_iff_eq, rfl, rfl, rfl, rfl, rfl, rfl, writeReg_sp r v _,
    fun a => congrArg (memRead · a) (writeReg_mem r v _), writeReg_lastStatus r v _, writeReg_lastConsumed r v _,
    writeReg_lastIllegalOp r v _, writeReg_lastIllegalAddr r v _, writeReg_resetDone r v _, writeReg_host r v _,
    writeReg_hostOut r v _, fun w z n => (exec_load_ignores_overwritten h s w z n).trans ht⟩
  · rw [← loadReg_eq]
    exact readReg_loadReg r v _
  · rw [← loadReg_eq]
    exact readReg_loadReg_other hq v _

end Sys2Proof.Machine

/-! PROOFS. The decoder and the encoder (30_encoding.md). `decode_eq_ok_iff` says once which byte strings decode, and to
what, under any `OPMAP`; both directions of the round trip are read off it. -/

namespace Sys2Proof.Machine

/-! ## Operand bytes -/

/-- The handler of an instruction has a form, and that form reads the instruction back from its operand bytes (R43). -/
theorem readOperands_operandBytes (i : Instr) (rest : List Byte) :
    ∃ f, opForm (handlerOf i) = .ok f ∧ readOperands f (operandBytes i ++ rest) = .ok (i, rest) := by
  cases i with
  | nop => exact ⟨_, rfl, rfl⟩  -- format F1
  | ldaImm | ldaZp | ldaZpX | ldaIndX | ldaIndY | ldxImm | ldxZp | ldxZpY | ldyImm | ldyZp | ldyZpX =>  -- format F2
    exact ⟨_, rfl, rfl⟩
  | ldaAbs | ldaAbsX | ldaAbsY | ldxAbs | ldxAbsY | ldyAbs | ldyAbsX | jsr =>  -- format F3
    exact ⟨_, rfl, by simp [operandBytes, wordBytes, readOperands]⟩

theorem readOperands_f2_eq_ok {mk : Byte → Instr} {bs rest : List Byte} {i : Instr}
    (h : readOperands (.f2 mk) bs = .ok (i, rest)) : ∃ d8, i = mk d8 ∧ bs = [d8] ++ rest := by
  match bs, h with
  | d8 :: _, h =>
    cases h
    exact ⟨d8, rfl, rfl⟩

theorem readOperands_f3_eq_ok {mk : Addr → Instr} {bs rest : List Byte} {i : Instr}
    (h : readOperands (.f3 mk) bs = .ok (i, rest)) : ∃ nn, i = mk nn ∧ bs = wordBytes nn ++ rest := by
  match bs, h with
  | lo :: hi :: _, h =>
    cases h
    exact ⟨wordOf hi lo, rfl, by simp [wordBytes]⟩

/-- What a handler's form reads is an instruction of that handler, from that instruction's operand bytes. -/
theorem handlerOf_of_readOperands {h : Handler} {f : Form} {bs rest : List Byte} {i : Instr} (hf : opForm h = .ok f)
    (hr : readOperands f bs = .ok (i, rest)) : handlerOf i = h ∧ bs = operandBytes i ++ rest := by
  cases h with
  | nop =>
    cases hf
    cases hr
    exact ⟨rfl, rfl⟩
  | jsr =>
    cases hf
    obtain ⟨nn, rfl, rfl⟩ := readOperands_f3_eq_ok hr
    exact ⟨rfl, rfl⟩
  | load r m =>
    cases m with
    | immediate | zeroPage | zeroPageX | zeroPageY | indirectX | indirectY =>
      cases r <;> cases hf <;>
      · obtain ⟨d8, rfl, rfl⟩ := readOperands_f2_eq_ok hr
        exact ⟨rfl, rfl⟩
    | absolute | absoluteX | absoluteY =>
      cases r <;> cases hf <;>
      · obtain ⟨nn, rfl, rfl⟩ := readOperands_f3_eq_ok hr
        exact ⟨rfl, rfl⟩

/-! ## What decodes -/

/-- Under any `OPMAP`, a byte string decodes to an instruction iff it is an opcode byte that the table gives to the
instruction's handler, then the instruction's operand bytes, then what is left (R43, R47). -/
theorem decode_eq_ok_iff {m : OpMap} {bs rest : List Byte} {i : Instr} :
    decode m bs = .ok (i, rest) ↔ ∃ op, m op = some (handlerOf i) ∧ bs = op :: (operandBytes i ++ rest) := by
  constructor
  · intro h
    match bs with
    | op :: tail =>
      cases ho : m op with
      | none => simp [decode, ho] at h
      | some hd =>
        cases hf : opForm hd with
        | error e => simp [decode, ho, hf] at h
        | ok f =>
          simp only [decode, ho, hf] at h
          obtain ⟨rfl, rfl⟩ := handlerOf_of_readOperands hf h
          exact ⟨op, ho, rfl⟩
  · rintro ⟨op, ho, rfl⟩
    obtain ⟨f, hf, hr⟩ := readOperands_operandBytes i rest
    simp only [decode, ho, hf, hr]

/-! ## The default table -/

theorem standardOpmap_opcodeByte (i : Instr) : standardOpmap (opcodeByte i) = some (handlerOf i) := by
  cases i <;> rfl

theorem mem_opRows_of_standardOpmap {op : Byte} {h : Handler} (ho : standardOpmap op = some h) : (op, h) ∈ opRows := by
  obtain ⟨rows, rows', hrows, -⟩ := List.lookup_eq_some_iff.1 ho
  rw [hrows]
  exact List.mem_append_right rows List.mem_cons_self

/-- No two rows of R45 select the same handler. -/
theorem opRows_handler_inj : ∀ p ∈ opRows, ∀ q ∈ opRows, p.2 = q.2 → p = q := by decide

/-- The encoder's byte is the only one the default table gives to the instruction's handler. -/
theorem standardOpmap_eq_handlerOf_iff {op : Byte} {i : Instr} :
    standardOpmap op = some (handlerOf i) ↔ op = opcodeByte i := by
  constructor
  · intro ho
    have hrow := mem_opRows_of_standardOpmap ho
    have hown := mem_opRows_of_standardOpmap (standardOpmap_opcodeByte i)
    exact congrArg Prod.fst (opRows_handler_inj _ hrow _ hown rfl)
  · rintro rfl
    exact standardOpmap_opcodeByte i

/-! ## The obligations -/

/-- Settles O51: the encoding has the form that `decode_eq_ok_iff` asks for. -/
theorem decodeOfEncode : Obligations.DecodeOfEncode := by
  intro i rest _
  exact decode_eq_ok_iff.2 ⟨opcodeByte i, standardOpmap_opcodeByte i, rfl⟩

/-- Settles O52: the opcode byte is the encoder's, since the default table has it in one row only. -/
theorem encodeOfDecode : Obligations.EncodeOfDecode := by
  intro bs i rest h
  obtain ⟨op, ho, rfl⟩ := decode_eq_ok_iff.1 h
  rw [standardOpmap_eq_handlerOf_iff.1 ho]
  rfl

/-- Settles O57: a form reads its operands from two bytes; a handler without a form is no instruction's. -/
theorem everyAssignedOpcodeIsDecodedOrNamed : Obligations.EveryAssignedOpcodeIsDecodedOrNamed := by
  intro m op b₁ b₂ h ho
  rcases opForm_cases h with ⟨_, _, f, hf⟩ | ⟨r, md, rfl, hf⟩
  · obtain ⟨⟨i, rest⟩, hr⟩ := readOperands_two f b₁ b₂
    obtain ⟨hi, hbs⟩ := handlerOf_of_readOperands hf hr
    exact .inl ⟨i, rest, decode_eq_ok_iff.2 ⟨op, hi ▸ ho, congrArg (op :: ·) hbs⟩, hi, hbs⟩
  · refine .inr ⟨r, md, rfl, fun i hi => ?_, by simp [decode, ho, hf]⟩
    obtain ⟨f, hok, _⟩ := readOperands_operandBytes i []
    rw [hi, hf] at hok
    cases hok

/-- Settles O53, row by row. -/
theorem dispatchTableRows : Obligations.DispatchTableRows := by
  unfold Obligations.DispatchTableRows
  decide

/-- Settles O54 by the 256 opcode bytes. -/
theorem unassignedBytesAreTheListedRanges : Obligations.UnassignedBytesAreTheListedRanges := by
  unfold Obligations.UnassignedBytesAreTheListedRanges
  decide

/-- Settles O55 by running the decoder. -/
theorem sampleWordsDecode : Obligations.SampleWordsDecode := by
  unfold Obligations.SampleWordsDecode
  decide

end Sys2Proof.Machine

/-! PROOFS. What a step of a run does, said once: on an assigned opcode byte (`stepWith_slot`), on an unassigned one under each
policy, and when the budget is spent. The spec's `Step()` stands between (40_controller_and_interfaces.md section 2, R58). -/

namespace Sys2Proof.Machine

/-! ## The machine's instruction is the spec's `Step()` -/

/-- The opcode's fetch and the operand word's make three bytes. -/
theorem fetchedWord_fetchedByte (s : State) : fetchedWord (fetchedByte s) = tick 3 (setPc (s.pc + 3) s) :=
  congrArg Prod.snd (fetchWord_fetchedByte s)

theorem specStep_load {c : Config} {s : State} {r : Reg} {m : Mode} (ho : c.opmap (memRead s.mem s.pc) = some (.load r m)) :
    specStep c s = loadHandler r m (fetchedByte s) := by
  simp only [specStep, specHandler, fetchByte, ho]

theorem specStep_jsr {c : Config} {s : State} (ho : c.opmap (memRead s.mem s.pc) = some .jsr) :
    specStep c s = jsrTo (operandWord s) (tick 3 (setPc (s.pc + 3) s)) := by
  simp only [specStep, specHandler, fetchByte, ho, jsrHandler, fetchWord_fetchedByte]

theorem specStep_nop {c : Config} {s : State} (ho : c.opmap (memRead s.mem s.pc) = some .nop) :
    specStep c s = tick 2 (setPc (s.pc + 1) s) := by
  simp only [specStep, specHandler, fetchByte, ho]
  exact tick_tick 1 1 _

theorem specStep_unassigned {c : Config} {s : State} (ho : c.opmap (memRead s.mem s.pc) = none) :
    specStep c s = unassignedOpcode c.unassignedPolicy (memRead s.mem s.pc) s.pc (fetchedByte s) := by
  simp only [specStep, specHandler, fetchByte, ho]

/-- Whatever the opcode byte at `PC`, the machine's instruction is the spec's `Step()`. -/
theorem runInstruction_eq_specStep (c : Config) (s : State) : runInstruction c s = .next (specStep c s) := by
  cases ho : c.opmap (memRead s.mem s.pc) with
  | none => rw [runInstruction, decode_instructionBytes_unassigned ho, specStep_unassigned ho]
  | some h =>
    cases h with
    | load r m => rw [runInstruction_load ho, specStep_load ho]
    | jsr =>
      rw [runInstruction, decode_instructionBytes_assigned ho rfl, specStep_jsr ho, ← fetchedWord_fetchedByte]
      rfl
    | nop =>
      rw [runInstruction, decode_instructionBytes_assigned ho rfl, specStep_nop ho, ← tick_tick 1 1]
      rfl

theorem stepWith_running_eq_specStep {c : Config} {s : State} {req cyc : Int} (hrun : s.phase = .running req cyc)
    (hpos : 0 < cyc) : stepWith c s = .next (specStep c s) := by
  rw [stepWith_running hrun hpos, runInstruction_eq_specStep]

/-! ## `Resolve` in every mode: the operand's address and the mode's total -/

/-- The address of the byte a mode loads, for the instruction at `PC` (41_addressing_modes.md R65 to R73). -/
def operandAddress (s : State) : Mode → Addr
  | .immediate => s.pc + 1
  | .zeroPage => zext16 (operandByte s)
  | .zeroPageX => zeroPageSum (operandByte s) s.x
  | .zeroPageY => zeroPageSum (operandByte s) s.y
  | .absolute => operandWord s
  | .absoluteX => indexSum (operandWord s) s.x
  | .absoluteY => indexSum (operandWord s) s.y
  | .indirectX => pointerAt s (zeroPageSum (operandByte s) s.x)
  | .indirectY => indexSum (pointerAt s (zext16 (operandByte s))) s.y

/-- A crossing cycle after `k` others, in the order `Resolve` charges them and in the table's. -/
theorem add_crossing_succ (k : Nat) (base ea : Addr) :
    k + ((pageCrossed base ea).toNat + 1) = k + 1 + crossingCycles base ea := by
  rw [pageCrossed_toNat]
  omega

/-- All that `Resolve` does after the opcode fetch: the byte at the operand's address, `PC` past the instruction, and the
mode's total charged, the opcode fetch included (R64). -/
theorem resolve_fetchedByte (m : Mode) (s : State) :
    resolve m (fetchedByte s) = (memRead s.mem (operandAddress s m),
      tick (modeCycles s m) (setPc (s.pc + BitVec.ofNat 16 (handlerLength (.load .a m))) s)) := by
  cases m with
  | immediate => exact fetchByte_fetchedByte s
  | zeroPage => exact resolve_zeroPage s
  | zeroPageX => exact resolve_zeroPageX s
  | zeroPageY => exact resolve_zeroPageY s
  | absolute => exact resolve_absolute s
  | absoluteX =>
    rw [resolve_absoluteX, add_crossing_succ]
    rfl
  | absoluteY =>
    rw [resolve_absoluteY, add_crossing_succ]
    rfl
  | indirectX =>
    simp only [resolve, fetchByte_fetchedByte, indirectXOperand_eq, tick_tick]
    rfl
  | indirectY =>
    simp only [resolve, fetchByte_fetchedByte, indirectYOperand_eq, tick_tick, add_crossing_succ, ← Nat.add_assoc]
    rfl

/-! ## A step on an assigned opcode byte -/

/-- The total a handler charges for the instruction at `PC` (70_reset_and_hazards.md R127; 41_addressing_modes.md R64). -/
def handlerCycles (s : State) : Handler → Nat
  | .load _ m => modeCycles s m
  | .jsr => 6
  | .nop => 2

/-- The image after a word has been pushed: low byte first, the high byte at the next address (R32). -/
def pushedWord (m : Memory) (base value : Addr) : Memory :=
  memWrite (memWrite m base (loByte value)) (base + 1) (hiByte value)

/-- What a handler makes of the state, but for the counter (R75, R95, R99). -/
def handlerEffect (s : State) : Handler → State
  | .load r m =>
    { writeReg r (memRead s.mem (operandAddress s m)) s with
      flags := loadedFlags (memRead s.mem (operandAddress s m)) s.flags
      pc := s.pc + BitVec.ofNat 16 (handlerLength (.load r m)) }
  | .jsr =>
    { s with
      pc := operandWord s
      sp := s.sp - 1
      mem := pushedWord s.mem (stackAddress s.sp) (s.pc + 2) }
  | .nop => { s with pc := s.pc + 1 }

theorem tick_setPc_running {s : State} {req cyc : Int} (hrun : s.phase = .running req cyc) (n : Nat) (pc : Addr) :
    tick n (setPc pc s) = { s with pc := pc, phase := .running req (cyc - n) } := by
  simp [tick, setPc, hrun]

/-- Everything a step does on an assigned opcode byte. -/
theorem stepWith_slot {c : Config} {s : State} {req cyc : Int} {h : Handler} (hs : AtSlot c s req cyc h) :
    stepWith c s = .next { handlerEffect s h with phase := .running req (cyc - handlerCycles s h) } := by
  obtain ⟨hrun, hpos, ho⟩ := id hs
  cases h with
  | load r m => exact stepWith_load hs (resolve_fetchedByte m s)
  | jsr =>
    have hret : s.pc + 3 - 1 = s.pc + 2 := by bv_omega
    have hsum : charge 3 (.running req (cyc - 3)) = .running req (cyc - 6) := by simp only [charge]; congr 1; omega
    rw [stepWith_running_eq_specStep hrun hpos, specStep_jsr ho, tick_setPc_running hrun, jsrTo_eq]
    simp only [hret, Nat.cast_ofNat, hsum, handlerEffect, handlerCycles, pushedWord]
  | nop =>
    rw [stepWith_running_eq_specStep hrun hpos, specStep_nop ho, tick_setPc_running hrun]
    rfl

theorem crossingCycles_le_one (base ea : Addr) : crossingCycles base ea ≤ 1 := by
  unfold crossingCycles
  split <;> decide

/-- A handler takes from 2 to 6 cycles. -/
theorem handlerCycles_bounds (s : State) (h : Handler) : 2 ≤ handlerCycles s h ∧ handlerCycles s h ≤ 6 := by
  have indexed (k : Nat) (base ea : Addr) (hk : 2 ≤ k) (hk' : k ≤ 5) :
      2 ≤ k + crossingCycles base ea ∧ k + crossingCycles base ea ≤ 6 := by
    have := crossingCycles_le_one base ea
    omega
  cases h with
  | jsr | nop => simp [handlerCycles]
  | load r m =>
    cases m with
    | absoluteX | absoluteY => exact indexed 4 _ _ (by decide) (by decide)
    | indirectY => exact indexed 5 _ _ (by decide) (by decide)
    | immediate | zeroPage | zeroPageX | zeroPageY | absolute | indirectX => simp [handlerCycles, modeCycles]

/-! ## The obligations about one step of a run -/

/-- Settles O15: a running step is one instruction, and that is the spec's. -/
theorem stepFollowsThePseudocode : Obligations.StepFollowsThePseudocode := by
  rintro c s ⟨req, cyc, hrun, hpos⟩
  exact stepWith_running_eq_specStep hrun hpos

/-- Settles O8: the fetch that `exec` starts from is `fetchedByte`. -/
theorem stepRunsTheDecodedInstruction : Obligations.StepRunsTheDecodedInstruction := by
  refine ⟨?_, fun s => rfl⟩
  rintro c s i rest ⟨req, cyc, hrun, hpos⟩ hd
  rw [stepWith_running hrun hpos, runInstruction, instructionBytes, hd]
  rfl

/-- Settles O37: the exception is taken in the state after the opcode fetch. -/
theorem unassignedOpcodeSignals : Obligations.UnassignedOpcodeSignals := by
  intro c s req cyc hp hrun hpos ho
  have hfetched : (fetchedByte s).phase = .running req (cyc - 1) := by simp [hrun]
  rw [stepWith_running_eq_specStep hrun hpos, specStep_unassigned ho, hp, unassignedOpcode,
    raiseIllegalOpcode_running _ _ hfetched]
  rfl

/-- Settles O38: the fetch's cycle and the handler's are two. -/
theorem unassignedOpcodeIsSkipped : Obligations.UnassignedOpcodeIsSkipped := by
  intro c s req cyc hp hrun hpos ho
  rw [stepWith_running_eq_specStep hrun hpos, specStep_unassigned ho, hp]
  exact congrArg _ ((tick_tick 1 1 _).trans (tick_setPc_running hrun 2 _))

/-- Settles O9: the exit is `finishExecute` and no fetch comes before it. -/
theorem loopEndsWhenBudgetIsSpent : Obligations.LoopEndsWhenBudgetIsSpent := by
  intro c s req cyc hrun hc
  rw [stepWith_ended hrun hc, finishExecute_running .ok hrun]

/-- Settles O30: `handlerEffect` of NOP. -/
theorem nopOnlyTakesTwoCycles : Obligations.NopOnlyTakesTwoCycles := by
  intro c s req cyc h
  exact stepWith_slot h

/-! ## Every step of a run -/

/-- The four things a step of a running controller can be: the end of the `execute`, a handler, the illegal-opcode exception,
or an unassigned opcode skipped (R57, R58, R100, R101). Every one answers a next state. -/
theorem stepWith_running_cases (c : Config) {s : State} {req cyc : Int} (hrun : s.phase = .running req cyc) :
    (cyc ≤ 0 ∧ stepWith c s = .next { s with phase := .idle, lastStatus := .ok, lastConsumed := req - cyc }) ∨
    (∃ h, AtSlot c s req cyc h ∧
      stepWith c s = .next { handlerEffect s h with phase := .running req (cyc - handlerCycles s h) }) ∨
    (0 < cyc ∧ c.opmap (memRead s.mem s.pc) = none ∧ c.unassignedPolicy = .signal ∧ stepWith c s = .next { s with
      pc := s.pc + 1, phase := .idle, lastStatus := .illegalOpcode, lastConsumed := req - (cyc - 1)
      lastIllegalOp := memRead s.mem s.pc, lastIllegalAddr := s.pc }) ∨
    (0 < cyc ∧ c.opmap (memRead s.mem s.pc) = none ∧ c.unassignedPolicy = .nop ∧
      stepWith c s = .next { s with pc := s.pc + 1, phase := .running req (cyc - 2) }) := by
  by_cases hpos : 0 < cyc
  · cases ho : c.opmap (memRead s.mem s.pc) with
    | some h => exact .inr (.inl ⟨h, ⟨hrun, hpos, ho⟩, stepWith_slot ⟨hrun, hpos, ho⟩⟩)
    | none =>
      cases hp : c.unassignedPolicy with
      | signal => exact .inr (.inr (.inl ⟨hpos, rfl, rfl, unassignedOpcodeSignals c s req cyc hp hrun hpos ho⟩))
      | nop => exact .inr (.inr (.inr ⟨hpos, rfl, rfl, unassignedOpcodeIsSkipped c s req cyc hp hrun hpos ho⟩))
  · have hspent : cyc ≤ 0 := Int.not_lt.1 hpos
    exact .inl ⟨hspent, loopEndsWhenBudgetIsSpent c s req cyc hrun hspent⟩

end Sys2Proof.Machine

/-! PROOFS. The loads (42_load.md) and the totals of the cycle table (70_reset_and_hazards.md section 4): as whole instructions,
and each handler of R45 after its opcode fetch. -/

namespace Sys2Proof.Machine

/-! ## Whole loads, in the modes that read a pointer and in every mode -/

/-- Settles O27: the pointer is at the zero-page sum. -/
theorem indirectXLoad : Obligations.IndirectXLoad := by
  rintro c s req cyc r _ _ h rfl rfl
  rw [← zeroPageSum_eq_ofNat]
  exact stepWith_slot h

/-- Settles O28: the index is added to the pointer, and the crossing counted from it. -/
theorem indirectYLoad : Obligations.IndirectYLoad := by
  rintro c s req cyc r _ _ _ _ h rfl rfl rfl rfl
  have hcycles (base ea : Addr) :
      (if base.toNat / 256 = ea.toNat / 256 then 5 else 6 : Int) = ((5 + crossingCycles base ea : Nat) : Int) := by
    unfold crossingCycles
    split <;> rfl
  rw [← zext16_eq_ofNat, ← indexSum_eq_ofNat, hcycles]
  exact stepWith_slot h

/-- Settles O56: `handlerEffect` of a load, field by field. -/
theorem everyLoadPairRunsTheLoadHandler : Obligations.EveryLoadPairRunsTheLoadHandler := by
  rintro c s req cyc r m _ h rfl
  rw [resolve_fetchedByte]
  refine ⟨_, stepWith_slot h, ?_, fun q hq => ?_, rfl, rfl, rfl, ?_⟩
  · cases r <;> rfl
  · revert hq
    cases r <;> cases q <;> simp [readReg, handlerEffect]
  · cases r <;> rfl

/-! ## The cycle table -/

/-- An operand word is the word of the two bytes that encode it, whatever follows them. -/
theorem eq_wordOf_of_wordBytes {nn : Addr} {lo hi : Byte} {rest : List Byte} (h : wordBytes nn ++ rest = [lo, hi]) :
    nn = wordOf hi lo := by
  obtain ⟨rfl, rfl, -⟩ : loByte nn = lo ∧ hiByte nn = hi ∧ rest = [] := by simpa [wordBytes] using h
  exact (wordOf_hiByte_loByte nn).symm

/-- The table's total for an instruction is its handler's, if the instruction's operand is what stands after `PC`. -/
theorem tableCycles_eq_handlerCycles {s : State} {i : Instr} {rest : List Byte}
    (h : operandBytes i ++ rest = [operandByte s, memRead s.mem (s.pc + 2)]) :
    tableCycles s i = handlerCycles s (handlerOf i) := by
  cases i with
  | ldaAbsX | ldaAbsY | ldxAbsY | ldyAbsX =>
    cases eq_wordOf_of_wordBytes h
    rfl
  | ldaIndY d8 =>
    obtain ⟨rfl, -⟩ : d8 = operandByte s ∧ rest = [memRead s.mem (s.pc + 2)] := by simpa [operandBytes] using h
    rfl
  | _ => rfl

/-- Settles O19: the bytes at `PC` decode to an instruction of the handler that `OPMAP` assigns. -/
theorem stepChargesTheTableTotal : Obligations.StepChargesTheTableTotal := by
  refine ⟨fun c s req cyc i rest hrun hpos hd => ?_, fun c s req cyc r m h => ⟨_, stepWith_slot h, rfl⟩⟩
  obtain ⟨op, ho, hbytes⟩ := decode_eq_ok_iff.1 hd
  obtain ⟨rfl, hoperand⟩ := List.cons.inj hbytes
  rw [tableCycles_eq_handlerCycles hoperand.symm]
  exact ⟨_, stepWith_slot ⟨hrun, hpos, ho⟩, rfl⟩

/-! ## The handlers after the opcode fetch: operand, `PC` and charge of each form -/

theorem zeroPageOperand_fetchedByte (d8 : Byte) (s : State) :
    zeroPageOperand d8 (fetchedByte s) = (memRead s.mem (zext16 d8), tick 2 (setPc (s.pc + 1) s)) :=
  congrArg _ (tick_tick 1 1 _)

theorem zeroPageIndexedOperand_fetchedByte (idx d8 : Byte) (s : State) :
    zeroPageIndexedOperand idx d8 (fetchedByte s) =
      (memRead s.mem (zext16 (d8 + idx)), tick 3 (setPc (s.pc + 1) s)) := by
  rw [zeroPageIndexedOperand_eq, fetchedByte, tick_tick]
  rfl

theorem absoluteOperand_fetchedWord (nn : Addr) (s : State) :
    absoluteOperand nn (fetchedWord s) = (memRead s.mem nn, tick 3 (setPc (s.pc + 2) s)) :=
  congrArg _ (tick_tick 1 2 _)

theorem absoluteIndexedOperand_fetchedWord (idx : Byte) (nn : Addr) (s : State) :
    absoluteIndexedOperand idx nn (fetchedWord s) =
      (memRead s.mem (nn + zext16 idx), tick (3 + crossingCycles nn (nn + zext16 idx)) (setPc (s.pc + 2) s)) := by
  rw [absoluteIndexedOperand_eq, fetchedWord, tick_tick, add_crossing_succ]
  rfl

theorem indirectXOperand_fetchedByte (d8 : Byte) (s : State) :
    indirectXOperand d8 (fetchedByte s) =
      (memRead s.mem (pointerAt s (zext16 (d8 + s.x))), tick 5 (setPc (s.pc + 1) s)) := by
  rw [indirectXOperand_eq, fetchedByte, tick_tick]
  rfl

theorem indirectYOperand_fetchedByte (d8 : Byte) (s : State) :
    indirectYOperand d8 (fetchedByte s) =
      (memRead s.mem (pointerAt s (zext16 d8) + zext16 s.y),
        tick (4 + crossingCycles (pointerAt s (zext16 d8)) (pointerAt s (zext16 d8) + zext16 s.y)) (setPc (s.pc + 1) s)) := by
  simp only [indirectYOperand_eq, fetchedByte, tick_tick, add_crossing_succ, ← Nat.add_assoc]
  rfl

/-- A load, given its operand, the new `PC` and its charge. -/
theorem loadReg_tick_setPc (r : Reg) (v : Byte) (n : Nat) (pc : Addr) (s : State) :
    loadReg r (v, tick n (setPc pc s)) =
      { writeReg r v s with flags := loadedFlags v s.flags, pc := pc, phase := charge n s.phase } := by
  rw [loadReg_eq, znFlags_eq_loadedFlags]
  cases r <;> rfl

/-- A handler that loads `p` into `r` completes with the effect of a load of what `p` is. -/
theorem exec_eq_of_operand {i : Instr} {s t : State} {r : Reg} {p : Byte × State} {v : Byte} {n : Nat} {pc : Addr}
    (hi : exec i s = .next (loadReg r p)) (hp : p = (v, tick n (setPc pc s)))
    (ht : { writeReg r v s with flags := loadedFlags v s.flags, pc := pc, phase := charge n s.phase } = t) :
    exec i s = .next t := by
  rw [hi, hp, loadReg_tick_setPc, ht]

/-- Settles O31: each handler loads its form's operand into `A`. -/
theorem ldaHandlersComplete : Obligations.LdaHandlersComplete := by
  intro s d8 nn
  exact ⟨exec_eq_of_operand rfl rfl rfl,
    ⟨_, rfl, exec_eq_of_operand rfl (zeroPageOperand_fetchedByte d8 s) rfl⟩,
    ⟨_, rfl, exec_eq_of_operand rfl (zeroPageIndexedOperand_fetchedByte s.x d8 s) rfl⟩,
    ⟨_, rfl, exec_eq_of_operand rfl (absoluteOperand_fetchedWord nn s) rfl⟩,
    ⟨_, rfl, exec_eq_of_operand rfl (absoluteIndexedOperand_fetchedWord s.x nn s) rfl⟩,
    ⟨_, rfl, exec_eq_of_operand rfl (absoluteIndexedOperand_fetchedWord s.y nn s) rfl⟩,
    ⟨_, rfl, exec_eq_of_operand rfl (indirectXOperand_fetchedByte d8 s) rfl⟩,
    ⟨_, _, rfl, rfl, exec_eq_of_operand rfl (indirectYOperand_fetchedByte d8 s) rfl⟩⟩

/-- Settles O32: as O31, with `X` as the destination and `Y` as the index. -/
theorem ldxHandlersComplete : Obligations.LdxHandlersComplete := by
  intro s d8 nn
  exact ⟨exec_eq_of_operand rfl rfl rfl,
    ⟨_, rfl, exec_eq_of_operand rfl (zeroPageOperand_fetchedByte d8 s) rfl⟩,
    ⟨_, rfl, exec_eq_of_operand rfl (zeroPageIndexedOperand_fetchedByte s.y d8 s) rfl⟩,
    ⟨_, rfl, exec_eq_of_operand rfl (absoluteOperand_fetchedWord nn s) rfl⟩,
    ⟨_, rfl, exec_eq_of_operand rfl (absoluteIndexedOperand_fetchedWord s.y nn s) rfl⟩⟩

/-- Settles O33: as O31, with `Y` as the destination and `X` as the index. -/
theorem ldyHandlersComplete : Obligations.LdyHandlersComplete := by
  intro s d8 nn
  exact ⟨exec_eq_of_operand rfl rfl rfl,
    ⟨_, rfl, exec_eq_of_operand rfl (zeroPageOperand_fetchedByte d8 s) rfl⟩,
    ⟨_, rfl, exec_eq_of_operand rfl (zeroPageIndexedOperand_fetchedByte s.x d8 s) rfl⟩,
    ⟨_, rfl, exec_eq_of_operand rfl (absoluteOperand_fetchedWord nn s) rfl⟩,
    ⟨_, rfl, exec_eq_of_operand rfl (absoluteIndexedOperand_fetchedWord s.x nn s) rfl⟩⟩

end Sys2Proof.Machine

/-! PROOFS. JSR (43_jsr.md), what it leaves on the stack, the NOP handler, and the bus operations (20_memory.md section 3). -/

namespace Sys2Proof.Machine

/-! ## A pushed word, byte by byte -/

theorem addr_ne_succ (a : Addr) : a ≠ a + 1 := by bv_omega

@[simp] theorem memRead_pushedWord_low (m : Memory) (base value : Addr) :
    memRead (pushedWord m base value) base = loByte value := by
  rw [pushedWord, memRead_memWrite_other _ _ (addr_ne_succ base), memRead_memWrite_same]

@[simp] theorem memRead_pushedWord_high (m : Memory) (base value : Addr) :
    memRead (pushedWord m base value) (base + 1) = hiByte value :=
  memRead_memWrite_same _ _ _

theorem memRead_pushedWord_other (m : Memory) {base b : Addr} (value : Addr) (hlow : b ≠ base) (hhigh : b ≠ base + 1) :
    memRead (pushedWord m base value) b = memRead m b := by
  rw [pushedWord, memRead_memWrite_other _ _ hhigh, memRead_memWrite_other _ _ hlow]

/-! ## JSR and NOP -/

/-- Settles O29: `handlerEffect` of JSR. -/
theorem jsrPushesAndJumps : Obligations.JsrPushesAndJumps := by
  intro c s req cyc h
  exact ⟨_, stepWith_slot h, rfl, rfl, rfl, memRead_pushedWord_low .., memRead_pushedWord_high ..,
    fun a => memRead_pushedWord_other s.mem (s.pc + 2), rfl⟩

/-- The JSR handler, after its opcode fetch (R95). -/
theorem exec_jsr (nn : Addr) (s : State) :
    exec (.jsr nn) s = .next { s with
      pc := nn, sp := s.sp - 1, mem := pushedWord s.mem (stackAddress s.sp) (s.pc + 1), phase := charge 5 s.phase } := by
  have hret : s.pc + 2 - 1 = s.pc + 1 := by bv_omega
  simp only [exec, execJsr, jsrTo_eq, fetchedWord_pc, hret, fetchedWord_phase, charge_charge]
  rfl

/-- Settles O35: the frame is read off `exec_jsr`. -/
theorem jsrHandlerCompletesWithItsFrame : Obligations.JsrHandlerCompletesWithItsFrame := by
  intro nn s
  exact ⟨_, exec_jsr nn s, rfl, rfl, rfl, memRead_pushedWord_low .., memRead_pushedWord_high ..,
    fun a => memRead_pushedWord_other s.mem (s.pc + 1), rfl, rfl, rfl, rfl, rfl, rfl, rfl, rfl, rfl, rfl, rfl⟩

/-- Settles O36: the handler is one `Tick`. -/
theorem nopHandlerCompletes : Obligations.NopHandlerCompletes := fun _ => rfl

/-! ## JSR's stack bytes in later steps -/

/-- What a step that runs JSR leaves of the two fields that the next JSR reads. -/
theorem jsr_step_stack {c : Config} {s t : State} (hf : s.fetches) (ho : c.opmap (memRead s.mem s.pc) = some .jsr)
    (hs : stepWith c s = .next t) :
    t.sp = s.sp - 1 ∧ t.mem = pushedWord s.mem (stackAddress s.sp) (s.pc + 2) := by
  obtain ⟨req, cyc, hrun, hpos⟩ := hf
  cases Host.Outcome.next.inj (hs.symm.trans (stepWith_slot ⟨hrun, hpos, ho⟩))
  exact ⟨rfl, rfl⟩

/-- Unless `SP` wraps, moving it down moves the stack address down. -/
theorem stackAddress_pred {sp : Byte} (h : sp ≠ 0x00) : stackAddress (sp - 1) = stackAddress sp - 1 := by
  unfold stackAddress zext16
  bv_omega

/-- Settles O43: without a wrap the second word's high byte takes the first one's low byte's place; with one, the two words lie
apart. -/
theorem successiveJsrsOverlap : Obligations.SuccessiveJsrsOverlap := by
  intro c s t u hfs hos hst hft hot htu
  obtain ⟨hsp, htmem⟩ := jsr_step_stack hfs hos hst
  obtain ⟨-, humem⟩ := jsr_step_stack hft hot htu
  rw [hsp] at humem
  refine ⟨fun hne => ?_, fun hzero => ?_⟩
  · have hnext : stackAddress s.sp - 1 + 1 = stackAddress s.sp := BitVec.sub_add_cancel _ _
    rw [stackAddress_pred hne] at humem
    refine ⟨?_, ?_, ?_⟩
    · rw [humem, memRead_pushedWord_low]
    · rw [humem, ← memRead_pushedWord_high t.mem (stackAddress s.sp - 1), hnext]
    · have hhigh : stackAddress s.sp + 1 ≠ stackAddress s.sp - 1 + 1 := by
        rw [hnext]
        exact (addr_ne_succ _).symm
      rw [humem, memRead_pushedWord_other _ _ (by bv_omega) hhigh, htmem, memRead_pushedWord_high]
  · rw [hzero] at humem htmem
    have hlow : stackAddress 0x00 = 0x0100 := by decide
    have hhigh : stackAddress (0x00 - 1) = 0x01FF := by decide
    rw [hlow] at htmem
    rw [hhigh] at humem
    refine ⟨?_, ?_, ?_, ?_⟩
    · rw [humem, memRead_pushedWord_other _ _ (by decide) (by decide), htmem, memRead_pushedWord_low]
    · rw [humem, memRead_pushedWord_other _ _ (by decide) (by decide), htmem]
      exact memRead_pushedWord_high ..
    · rw [humem, memRead_pushedWord_low]
    · rw [humem]
      exact memRead_pushedWord_high ..

/-- Settles O44: the new `PC` is the operand word, at which the pushed byte stands. -/
theorem fetchSeesTheBytesJsrWrote : Obligations.FetchSeesTheBytesJsrWrote := by
  rintro c s ⟨req, cyc, hrun, hpos⟩ ho
  refine ⟨_, stepWith_slot ⟨hrun, hpos, ho⟩, fun htarget => ?_, fun htarget => ?_⟩
  · simp only [handlerEffect, htarget, memRead_pushedWord_low]
  · simp only [handlerEffect, htarget, memRead_pushedWord_high]

/-! ## The bus operations -/

/-- Settles O47: `fetchedByte` and `tick` are these record updates. -/
theorem byteBusOperations : Obligations.ByteBusOperations := fun _ _ => ⟨rfl, rfl⟩

theorem wordOf_eq_ofNat (hi lo : Byte) : wordOf hi lo = BitVec.ofNat 16 (hi.toNat * 256 + lo.toNat) := by
  rw [← wordOf_toNat, BitVec.ofNat_toNat, BitVec.setWidth_eq]

theorem loByte_eq_ofNat (v : Addr) : loByte v = BitVec.ofNat 8 (v.toNat % 256) := by
  rw [← loByte_toNat, BitVec.ofNat_toNat, BitVec.setWidth_eq]

theorem hiByte_eq_ofNat (v : Addr) : hiByte v = BitVec.ofNat 8 (v.toNat / 256) := by
  rw [← hiByte_toNat, BitVec.ofNat_toNat, BitVec.setWidth_eq]

/-- Settles O48: a word is its two bytes in order, and the write is `pushedWord`. -/
theorem wordBusOperations : Obligations.WordBusOperations := by
  intro s addr value
  rw [← wordOf_eq_ofNat, ← wordOf_eq_ofNat, ← loByte_eq_ofNat, ← hiByte_eq_ofNat]
  exact ⟨rfl, rfl, _, rfl, memRead_pushedWord_low s.mem addr value, memRead_pushedWord_high s.mem addr value,
    fun b => memRead_pushedWord_other s.mem value, rfl⟩

end Sys2Proof.Machine

/-! PROOFS. The host's operations and the execution loop (40_controller_and_interfaces.md). -/

namespace Sys2Proof.Machine

/-! ## Reset and the host -/

/-- Settles O1: the fields of `State.reset`. -/
theorem resetLeavesTheTableOfValues : Obligations.ResetLeavesTheTableOfValues :=
  ⟨rfl, rfl, rfl, rfl, rfl, rfl, fun _ => rfl, rfl, rfl, rfl⟩

/-- While idle a pending reset leads to the state after reset. -/
theorem stepWith_reset {c : Config} {s : State} {rest : List HostOp} (hidle : s.phase = .idle) (hq : s.host = .reset :: rest) :
    stepWith c s = .next { State.reset with host := rest, hostOut := s.hostOut } :=
  stepWith_host hidle hq

/-- Settles O2: the second reset starts from the state that the first one leads to. -/
theorem resetOperationReachesTheResetState : Obligations.ResetOperationReachesTheResetState := by
  refine ⟨fun c s rest hidle hq => stepWith_reset hidle hq, fun c s rest hidle hq => ?_⟩
  exact ⟨_, stepWith_reset hidle hq, stepWith_reset rfl rfl⟩

/-- Settles O7: the last arm of `stepWith`. -/
theorem idleWithoutOperationChangesNothing : Obligations.IdleWithoutOperationChangesNothing := by
  intro c s hidle hq
  simp only [stepWith, hidle, hq]

/-- A step of a running controller leaves the host's two fields as they are. -/
theorem stepWith_running_keeps_host (c : Config) {s : State} {req cyc : Int} (hrun : s.phase = .running req cyc) :
    ∃ t, stepWith c s = .next t ∧ t.host = s.host ∧ t.hostOut = s.hostOut := by
  rcases stepWith_running_cases c hrun with ⟨-, ht⟩ | ⟨h, -, ht⟩ | ⟨-, -, -, ht⟩ | ⟨-, -, -, ht⟩
  · exact ⟨_, ht, rfl, rfl⟩
  · cases h with
    | load r m => exact ⟨_, ht, writeReg_host r _ s, writeReg_hostOut r _ s⟩
    | jsr | nop => exact ⟨_, ht, rfl, rfl⟩
  · exact ⟨_, ht, rfl, rfl⟩
  · exact ⟨_, ht, rfl, rfl⟩

/-- Settles O4: each host operation is its arm of `hostStep`; while running none is performed. -/
theorem hostMemoryAccess : Obligations.HostMemoryAccess := by
  refine ⟨fun c s addr rest hidle hq => stepWith_host hidle hq, fun c s addr v rest hidle hq => ?_,
    fun c s req cyc hrun => stepWith_running_keeps_host c hrun, fun c s rest hidle hq => ?_⟩
  · exact ⟨_, stepWith_host hidle hq, memRead_memWrite_same s.mem addr v, fun b hb => memRead_memWrite_other s.mem v hb, rfl⟩
  · exact ⟨_, stepWith_reset hidle hq, fun _ => rfl⟩

/-- "Writing one flag never changes another" (R13). -/
theorem readFlag_writeFlag (f : Flags) (b : Bool) (written read : FlagName) :
    readFlag (writeFlag f b written) read = if read = written then b else readFlag f read := by
  cases written <;> cases read <;> rfl

/-- Settles O5: `reg_write` through its access mode and the register it names, `reg_read` through the register. -/
theorem hostRegisterAccess : Obligations.HostRegisterAccess := by
  refine ⟨fun c s rv rest hidle hq ha => ?_, fun c s rv rest hidle hq ha => ?_, fun c s r rest hidle hq => ?_⟩
  · simp only [stepWith_host hidle hq, hostStep, ha]
  · refine ⟨writeRegister { s with host := rest } rv, by simp only [stepWith_host hidle hq, hostStep, ha], ?_⟩
    cases rv with
    | flag f b =>
      exact ⟨(readFlag_writeFlag s.flags b f f).trans (if_pos rfl),
        fun g hg => (readFlag_writeFlag s.flags b f g).trans (if_neg hg), rfl⟩
    | pc | sp | a | x | y => rfl
  · exact ⟨readRegister s r, stepWith_host hidle hq, by cases r <;> rfl⟩

/-! ## The start of an `execute` -/

theorem budgetFits_eq_false_iff {w : Option Nat} {budget : Int} :
    budgetFits w budget = false ↔ ∃ n, w = some n ∧ 2 ^ (n - 1) - 6 < budget := by
  cases w with
  | none => simp [budgetFits]
  | some n =>
    simp only [budgetFits, decide_eq_false_iff_not, Option.some.injEq, exists_eq_left']
    omega

theorem stepWith_execute {c : Config} {s : State} {budget : Int} {rest : List HostOp} (hidle : s.phase = .idle)
    (hq : s.host = .execute budget :: rest) (hreset : s.resetDone = true) (hfits : budgetFits c.cycleW budget = true) :
    stepWith c s = .next { s with host := rest, phase := .running budget budget } := by
  simp [stepWith_host hidle hq, hostStep, hreset, hfits]

/-- Settles O3: the two tests of `hostStep` in their order. -/
theorem startOfExecute : Obligations.StartOfExecute := by
  intro c s budget rest hidle hq
  refine ⟨fun hreset => ?_, fun hreset hout => ?_, fun hreset hin => stepWith_execute hidle hq hreset ?_⟩
  · simp [stepWith_host hidle hq, hostStep, hreset]
  · simp [stepWith_host hidle hq, hostStep, hreset, budgetFits_eq_false_iff.2 hout]
  · rw [← Bool.not_eq_false, budgetFits_eq_false_iff]
    rintro ⟨w, hw, hlt⟩
    rcases hin with hnone | ⟨w', hw', hle⟩
    · cases hw.symm.trans hnone
    · cases hw.symm.trans hw'
      omega

/-- Settles O10: the loop ends at once, having consumed `budget - budget`. -/
theorem spentBudgetRunsNothing : Obligations.SpentBudgetRunsNothing := by
  intro c s budget rest hidle hreset hq hfits hspent
  refine ⟨_, stepWith_execute hidle hq hreset hfits, ?_⟩
  rw [loopEndsWhenBudgetIsSpent c _ budget budget rfl hspent, Int.sub_self, ← hidle]

/-- Settles O11: one instruction leaves at most `1 - 2` cycles. -/
theorem budgetOfOneRunsOneInstruction : Obligations.BudgetOfOneRunsOneInstruction := by
  intro c s rest hidle hreset hq hfits
  have hpos : (0 : Int) < 1 := by decide
  refine ⟨_, _, stepWith_execute hidle hq hreset hfits, rfl, stepWith_running_eq_specStep rfl hpos, rfl, ?_⟩
  generalize hu : ({ s with host := rest, phase := .running 1 1 } : State) = u
  have hrun : u.phase = .running 1 1 := by rw [← hu]
  have hspec := stepWith_running_eq_specStep (c := c) hrun hpos
  have ended {t : State} {cyc : Int} (ht : t.phase = .running 1 cyc) (hspent : cyc ≤ 0) : t.phase = .idle ∨
      ∃ cyc, cyc ≤ 0 ∧ t.phase = .running 1 cyc ∧
        stepWith c t = .next { t with phase := .idle, lastStatus := .ok, lastConsumed := 1 - cyc } :=
    .inr ⟨cyc, hspent, ht, loopEndsWhenBudgetIsSpent c t 1 cyc ht hspent⟩
  rcases stepWith_running_cases c hrun with ⟨hc, -⟩ | ⟨h, -, ht⟩ | ⟨-, -, -, ht⟩ | ⟨-, -, -, ht⟩
  · exact absurd hpos (Int.not_lt.2 hc)
  · rw [Host.Outcome.next.inj (hspec.symm.trans ht)]
    have := (handlerCycles_bounds u h).1
    exact ended rfl (by omega)
  · rw [Host.Outcome.next.inj (hspec.symm.trans ht)]
    exact .inl rfl
  · rw [Host.Outcome.next.inj (hspec.symm.trans ht)]
    exact ended rfl (by decide)

/-! ## What a step of a run does not read -/

theorem handlerEffect_host (s : State) (h : Handler) (pending : List HostOp) :
    handlerEffect { s with host := pending } h = { handlerEffect s h with host := pending } := by
  cases h with
  | load r m => cases r <;> cases m <;> rfl
  | jsr | nop => rfl

theorem handlerEffect_phase (s : State) (h : Handler) (p : Phase) :
    handlerEffect { s with phase := p } h = { handlerEffect s h with phase := p } := by
  cases h with
  | load r m => cases r <;> cases m <;> rfl
  | jsr | nop => rfl

theorem handlerCycles_phase_host (s : State) (h : Handler) (p : Phase) (pending : List HostOp) :
    handlerCycles { s with phase := p, host := pending } h = handlerCycles s h := by
  cases h with
  | load r m => cases m <;> rfl
  | jsr | nop => rfl

/-- Settles O6: the host's list appears in no case of a running step. -/
theorem hostHasNoMoveWhileRunning : Obligations.HostHasNoMoveWhileRunning := by
  intro c s req cyc pending hrun
  obtain ⟨t, ht, hhost, -⟩ := stepWith_running_keeps_host c hrun
  refine ⟨t, ht, hhost, ?_⟩
  rcases stepWith_running_cases c hrun with ⟨hc, ht'⟩ | ⟨h, hs, ht'⟩ | ⟨hpos, ho, hp, ht'⟩ | ⟨hpos, ho, hp, ht'⟩ <;>
    cases Host.Outcome.next.inj (ht.symm.trans ht')
  · exact loopEndsWhenBudgetIsSpent c _ req cyc hrun hc
  · have hs' : AtSlot c { s with host := pending } req cyc h := ⟨hrun, hs.positive, hs.assigned⟩
    rw [stepWith_slot hs', handlerEffect_host, handlerCycles_phase_host]
  · exact unassignedOpcodeSignals c _ req cyc hp hrun hpos ho
  · exact unassignedOpcodeIsSkipped c _ req cyc hp hrun hpos ho

/-- Settles O12: a handler's effect and total do not depend on the phase. -/
theorem instructionsDoNotReadTheCounter : Obligations.InstructionsDoNotReadTheCounter := by
  intro c s h req₁ cyc₁ req₂ cyc₂ hpos₁ hpos₂ ho
  have hstep (req cyc : Int) (hpos : 0 < cyc) : stepWith c { s with phase := .running req cyc } =
      .next { handlerEffect s h with phase := .running req (cyc - handlerCycles s h) } := by
    rw [stepWith_slot (s := { s with phase := .running req cyc }) ⟨rfl, hpos, ho⟩, handlerEffect_phase, handlerCycles_phase_host]
  obtain ⟨hlow, hhigh⟩ := handlerCycles_bounds s h
  exact ⟨handlerEffect s h, handlerCycles s h, hlow, hhigh, hstep req₁ cyc₁ hpos₁, hstep req₂ cyc₂ hpos₂⟩

/-! ## Runs -/

theorem stepsWith_succ {c : Config} {s t : State} (h : stepWith c s = .next t) (k : Nat) :
    stepsWith c (k + 1) s = stepsWith c k t := by
  simp only [stepsWith, h]

/-- With at most `2 * n` cycles left a run is over after `n + 1` steps: each step but the last takes two or more. -/
theorem run_ends (c : Config) (n : Nat) : ∀ (s : State) (req cyc : Int), s.phase = .running req cyc → cyc ≤ 2 * n →
    ∃ k t, k ≤ n + 1 ∧ stepsWith c k s = .next t ∧ t.phase = .idle ∧ t.host = s.host := by
  induction n with
  | zero =>
    intro s req cyc hrun hc
    exact ⟨1, _, Nat.le_refl 1, stepsWith_succ (loopEndsWhenBudgetIsSpent c s req cyc hrun (by omega)) 0, rfl, rfl⟩
  | succ n ih =>
    intro s req cyc hrun hc
    have goOn {t : State} {cyc' : Int} (ht : stepWith c s = .next t) (hhost : t.host = s.host)
        (hphase : t.phase = .running req cyc') (hc' : cyc' ≤ cyc - 2) :
        ∃ k t, k ≤ n + 1 + 1 ∧ stepsWith c k s = .next t ∧ t.phase = .idle ∧ t.host = s.host := by
      obtain ⟨k, u, hk, hu, hidle, hh⟩ := ih t req cyc' hphase (by omega)
      exact ⟨k + 1, u, by omega, (stepsWith_succ ht k).trans hu, hidle, hh.trans hhost⟩
    obtain ⟨t, ht, hhost, -⟩ := stepWith_running_keeps_host c hrun
    rcases stepWith_running_cases c hrun with ⟨-, ht'⟩ | ⟨h, -, ht'⟩ | ⟨-, -, -, ht'⟩ | ⟨-, -, -, ht'⟩ <;>
      cases Host.Outcome.next.inj (ht.symm.trans ht')
    · exact ⟨1, _, by omega, stepsWith_succ ht 0, rfl, rfl⟩
    · have := (handlerCycles_bounds s h).1
      exact goOn ht hhost rfl (by omega)
    · exact ⟨1, _, by omega, stepsWith_succ ht 0, rfl, rfl⟩
    · exact goOn ht hhost rfl (Int.le_refl _)

/-- Settles O14: `run_ends` with half the counter, rounded up. -/
theorem executeAlwaysReturns : Obligations.ExecuteAlwaysReturns := by
  intro c s req cyc hrun
  exact run_ends c ((cyc.toNat + 1) / 2) s req cyc hrun (by omega)

/-- Settles O16, by induction on the loop's fuel. -/
theorem stepsFollowTheExecuteLoop : Obligations.StepsFollowTheExecuteLoop := by
  intro c fuel
  induction fuel with
  | zero =>
    intro s t h
    cases h
  | succ fuel ih =>
    intro s t h
    cases hp : s.phase with
    | idle =>
      simp only [specLoop, hp, Option.some.injEq] at h
      subst h
      exact ⟨hp, 0, Nat.zero_le _, rfl⟩
    | running req cyc =>
      by_cases hpos : 0 < cyc
      · simp only [specLoop, hp, hpos, if_true] at h
        obtain ⟨hidle, k, hk, hrun⟩ := ih _ t h
        exact ⟨hidle, k + 1, Nat.succ_le_succ hk, (stepsWith_succ (stepWith_running_eq_specStep hp hpos) k).trans hrun⟩
      · simp only [specLoop, hp, hpos, if_false, Option.some.injEq] at h
        subst h
        refine ⟨by rw [finishExecute_running .ok hp], 1, by omega, ?_⟩
        exact stepsWith_succ (stepWith_ended hp (Int.not_lt.1 hpos)) 0

end Sys2Proof.Machine

/-! PROOFS. What every step keeps: the invariant (10_state.md section 4), and what only some instructions change. -/

namespace Sys2Proof.Machine

/-! ## The invariant -/

/-- Settles O18: the empty image is canonical, and the controller is idle. -/
theorem resetMeetsTheInvariant : Obligations.ResetMeetsTheInvariant :=
  ⟨reset_mem_wf, trivial, fun h => absurd rfl h, Int.le_refl 0⟩

theorem handlerEffect_mem_wf {s : State} (h : Handler) (hs : Memory.wf s.mem) : Memory.wf (handlerEffect s h).mem := by
  cases h with
  | load r m => exact (writeReg_mem r _ s).symm ▸ hs
  | jsr => exact memWrite_wf _ _ (memWrite_wf _ _ hs)
  | nop => exact hs

theorem handlerEffect_resetDone (s : State) (h : Handler) : (handlerEffect s h).resetDone = s.resetDone := by
  cases h with
  | load r m => exact writeReg_resetDone r _ s
  | jsr | nop => rfl

theorem handlerEffect_lastConsumed (s : State) (h : Handler) : (handlerEffect s h).lastConsumed = s.lastConsumed := by
  cases h with
  | load r m => exact writeReg_lastConsumed r _ s
  | jsr | nop => rfl

theorem counter_bounds {s : State} {req cyc : Int} (hs : s.Inv) (hrun : s.phase = .running req cyc) :
    cyc ≤ req ∧ (cyc = req ∨ -5 ≤ cyc) := by
  have hcounter := hs.counter
  rw [hrun] at hcounter
  exact hcounter

/-- A running step keeps the invariant: it charges at most 6 from a positive counter, and an `execute` that ends has consumed
what lies between the counter and the budget. -/
theorem running_step_keeps_inv {c : Config} {s t : State} {req cyc : Int} (hs : s.Inv) (hrun : s.phase = .running req cyc)
    (ht : stepWith c s = .next t) : t.Inv := by
  obtain ⟨hle, -⟩ := counter_bounds hs hrun
  obtain ⟨hmem, -, hreset, hconsumed⟩ := hs
  have hdone : s.resetDone = true := hreset (by simp [hrun])
  rcases stepWith_running_cases c hrun with ⟨-, ht'⟩ | ⟨h, hslot, ht'⟩ | ⟨hpos, -, -, ht'⟩ | ⟨hpos, -, -, ht'⟩ <;>
    cases Host.Outcome.next.inj (ht.symm.trans ht')
  · exact ⟨hmem, trivial, fun _ => hdone, Int.sub_nonneg.2 hle⟩
  · have hpos := hslot.positive
    have hcost := handlerCycles_bounds s h
    exact ⟨handlerEffect_mem_wf h hmem, ⟨by omega, .inr (by omega)⟩, fun _ => (handlerEffect_resetDone s h).trans hdone,
      (handlerEffect_lastConsumed s h).symm ▸ hconsumed⟩
  · exact ⟨hmem, trivial, fun _ => hdone, by show 0 ≤ req - (cyc - 1); omega⟩
  · exact ⟨hmem, ⟨by omega, .inr (by omega)⟩, fun _ => hdone, hconsumed⟩

/-- A host operation keeps the invariant: only `execute` leaves the controller running, with the counter at its budget. -/
theorem host_step_keeps_inv {c : Config} {op : HostOp} {s t : State} (hs : s.Inv) (ht : hostStep c op s = .next t) :
    t.Inv := by
  obtain ⟨hmem, hcounter, hreset, hconsumed⟩ := hs
  rcases hostStep_next_cases ht with ⟨-, rfl⟩ | ⟨budget, -, hdone, -, rfl⟩ | ⟨addr, -, rfl⟩ | ⟨addr, v, -, rfl⟩ | ⟨r, -, rfl⟩ |
    ⟨rv, -, -, rfl⟩
  · exact ⟨reset_mem_wf, trivial, fun h => absurd rfl h, Int.le_refl 0⟩
  · exact ⟨hmem, ⟨Int.le_refl budget, .inl rfl⟩, fun _ => hdone, hconsumed⟩
  · exact ⟨hmem, hcounter, hreset, hconsumed⟩
  · exact ⟨memWrite_wf addr v hmem, hcounter, hreset, hconsumed⟩
  · exact ⟨hmem, hcounter, hreset, hconsumed⟩
  · cases rv <;> exact ⟨hmem, hcounter, hreset, hconsumed⟩

/-- Settles O17: a step is a running controller's, or nothing, or one host operation. -/
theorem stepKeepsTheInvariant : Obligations.StepKeepsTheInvariant := by
  intro c s t hs ht
  cases hp : s.phase with
  | running req cyc => exact running_step_keeps_inv hs hp ht
  | idle =>
    cases hq : s.host with
    | nil =>
      cases Host.Outcome.next.inj (ht.symm.trans (idleWithoutOperationChangesNothing c s hp hq))
      exact hs
    | cons op rest =>
      rw [stepWith_host hp hq] at ht
      exact host_step_keeps_inv (s := { s with host := rest }) ⟨hs.memory, hs.counter, hs.reset, hs.consumed⟩ ht

/-- Settles O13: the invariant's lower bound of the counter, read at the loop's exit. -/
theorem consumptionWithinFiveOfTheBudget : Obligations.ConsumptionWithinFiveOfTheBudget := by
  intro c s req cyc hs hrun hspent hreq
  obtain ⟨-, hlow⟩ := counter_bounds hs hrun
  exact ⟨_, loopEndsWhenBudgetIsSpent c s req cyc hrun hspent, rfl, by show req ≤ req - cyc; omega,
    by show req - cyc ≤ req + 5; omega⟩

/-! ## What only some instructions change -/

/-- A controller that is not idle runs. -/
theorem running_of_ne_idle {p : Phase} (h : p ≠ .idle) : ∃ req cyc, p = .running req cyc := by
  cases p with
  | idle => exact absurd rfl h
  | running req cyc => exact ⟨req, cyc, rfl⟩

/-- Settles O40: among the steps of a run only a load's touches the flags, and that one writes `Z` and `N`. -/
theorem onlyLoadsChangeFlags : Obligations.OnlyLoadsChangeFlags := by
  intro c s t hne ht
  obtain ⟨req, cyc, hrun⟩ := running_of_ne_idle hne
  rcases stepWith_running_cases c hrun with ⟨-, ht'⟩ | ⟨h, hslot, ht'⟩ | ⟨-, -, -, ht'⟩ | ⟨-, -, -, ht'⟩ <;>
    cases Host.Outcome.next.inj (ht.symm.trans ht')
  · exact ⟨rfl, rfl, rfl, rfl, rfl, fun _ => rfl⟩
  · cases h with
    | load r m => exact ⟨rfl, rfl, rfl, rfl, rfl, fun hno => absurd hslot.assigned (hno r m)⟩
    | jsr | nop => exact ⟨rfl, rfl, rfl, rfl, rfl, fun _ => rfl⟩
  · exact ⟨rfl, rfl, rfl, rfl, rfl, fun _ => rfl⟩
  · exact ⟨rfl, rfl, rfl, rfl, rfl, fun _ => rfl⟩

/-- Settles O41: among the handlers only JSR's effect names `SP` or the image. -/
theorem onlyJsrChangesStackPointerAndMemory : Obligations.OnlyJsrChangesStackPointerAndMemory := by
  intro c s t hne ht hno
  obtain ⟨req, cyc, hrun⟩ := running_of_ne_idle hne
  rcases stepWith_running_cases c hrun with ⟨-, ht'⟩ | ⟨h, hslot, ht'⟩ | ⟨-, -, -, ht'⟩ | ⟨-, -, -, ht'⟩ <;>
    cases Host.Outcome.next.inj (ht.symm.trans ht')
  · exact ⟨rfl, fun _ => rfl⟩
  · cases h with
    | load r m => exact ⟨writeReg_sp r _ s, fun a => congrArg (memRead · a) (writeReg_mem r _ s)⟩
    | jsr => exact absurd hslot.assigned hno
    | nop => exact ⟨rfl, fun _ => rfl⟩
  · exact ⟨rfl, fun _ => rfl⟩
  · exact ⟨rfl, fun _ => rfl⟩

/-- Settles O42: `PC` in each of the four kinds of step. -/
theorem programCounterFollowsTheInstruction : Obligations.ProgramCounterFollowsTheInstruction := by
  intro c s t req cyc hrun ht
  rcases stepWith_running_cases c hrun with ⟨hc, ht'⟩ | ⟨h, hslot, ht'⟩ | ⟨hpos, ho, -, ht'⟩ | ⟨hpos, ho, -, ht'⟩ <;>
    cases Host.Outcome.next.inj (ht.symm.trans ht')
  · exact ⟨fun _ => rfl, fun hpos => absurd hpos (Int.not_lt.2 hc)⟩
  · refine ⟨fun hc => absurd hslot.positive (Int.not_lt.2 hc), fun _ => ?_⟩
    rw [hslot.assigned]
    cases h <;> rfl
  · exact ⟨fun hc => absurd hpos (Int.not_lt.2 hc), fun _ => by rw [ho]⟩
  · exact ⟨fun hc => absurd hpos (Int.not_lt.2 hc), fun _ => by rw [ho]⟩

/-! ## The policy for unassigned opcodes -/

/-- A step that fetches no unassigned opcode does not depend on the policy (R102). -/
theorem stepWith_policy {c : Config} {s : State} {p q : UnassignedPolicy} (hno : ¬ fetchesUnassigned c s) :
    stepWith { c with unassignedPolicy := p } s = stepWith { c with unassignedPolicy := q } s := by
  cases hp : s.phase with
  | idle => simp only [stepWith, hp]; rfl
  | running req cyc =>
    by_cases hpos : 0 < cyc
    · cases ho : c.opmap (memRead s.mem s.pc) with
      | none => exact absurd ⟨⟨req, cyc, hp, hpos⟩, ho⟩ hno
      | some h =>
        have hslot (r : UnassignedPolicy) : AtSlot { c with unassignedPolicy := r } s req cyc h := ⟨hp, hpos, ho⟩
        exact (stepWith_slot (hslot p)).trans (stepWith_slot (hslot q)).symm
    · have hspent : cyc ≤ 0 := Int.not_lt.1 hpos
      exact (stepWith_ended hp hspent).trans (stepWith_ended hp hspent).symm

/-- Settles O39, by induction on the number of steps. -/
theorem safeRunsDoNotDependOnThePolicy : Obligations.SafeRunsDoNotDependOnThePolicy := by
  intro c n
  induction n with
  | zero => exact fun _ _ => rfl
  | succ n ih =>
    rintro s ⟨hno, t, ht, hsafe⟩
    have hnop : stepWith { c with unassignedPolicy := .nop } s = .next t := (stepWith_policy hno).trans ht
    rw [stepsWith_succ hnop, stepsWith_succ ht, ih t hsafe]

end Sys2Proof.Machine

/-! PROOFS. Addresses as numbers, and the canonical form of a memory image (20_memory.md section 1). -/

namespace Sys2Proof.Machine

/-! ## Address arithmetic -/

/-- Settles O49: each sum is its operands' modulo the width of its result. -/
theorem addressArithmeticWraps : Obligations.AddressArithmeticWraps := by
  intro d8 idx sp addr
  refine ⟨?_, ?_, BitVec.toNat_add _ _, BitVec.toNat_add _ _, by bv_omega, by bv_omega, ?_⟩
  · rw [zeroPageSum, zext16_toNat, BitVec.toNat_add]
  · rw [indexSum, BitVec.toNat_add, zext16_toNat]
  · rw [stackAddress, BitVec.toNat_add, zext16_toNat]
    have := sp.isLt
    show (256 + sp.toNat) % 65536 = 256 + sp.toNat
    omega

/-- The crossing test compares the high bytes as numbers (R74). -/
theorem pageCrossed_iff (base ea : Addr) : pageCrossed base ea = true ↔ base.toNat / 256 ≠ ea.toNat / 256 := by
  rw [pageCrossed, bne_iff_ne, Ne, ← BitVec.toNat_inj, hiByte_toNat, hiByte_toNat]

/-- Settles O46: an index is less than a page, so it changes the high byte iff the low bytes carry. -/
theorem pageCrossingIsTheLowByteCarry : Obligations.PageCrossingIsTheLowByteCarry := by
  intro base other idx
  refine ⟨?_, bne_comm, pageCrossed_iff base other⟩
  have hbase := base.isLt
  have hidx := idx.isLt
  rw [pageCrossed_iff, BitVec.toNat_add, zext16_toNat]
  omega

/-! ## One list for one image -/

/-- A byte that is not the unlisted one is read from an entry. -/
theorem mem_of_memRead_ne {m : Memory} {a : Addr} (h : memRead m a ≠ unlistedByte) : (a.toNat, memRead m a) ∈ m := by
  induction m with
  | nil => exact absurd rfl h
  | cons c m ih =>
    rw [memRead_cons] at h ⊢
    split
    · next hk => exact hk ▸ List.mem_cons_self
    · next hk => exact List.mem_cons_of_mem c (ih (by rwa [if_neg hk] at h))

/-- In rising order of address every entry is the one its address reads. -/
theorem memRead_of_mem {m : Memory} (hs : m.Pairwise fun c d => c.1 < d.1) {a : Addr} {v : Byte} (h : (a.toNat, v) ∈ m) :
    memRead m a = v := by
  induction m with
  | nil => cases h
  | cons c m ih =>
    obtain ⟨hhead, htail⟩ := List.pairwise_cons.1 hs
    rw [memRead_cons]
    rcases List.mem_cons.1 h with rfl | h
    · exact if_pos rfl
    · rw [if_neg (Nat.ne_of_lt (hhead _ h)), ih htail h]

/-- The entries of a canonical memory are in every memory that reads alike. -/
theorem subset_of_memRead_eq {m m' : Memory} (h : Memory.wf m) (hread : ∀ a, memRead m a = memRead m' a) : m ⊆ m' := by
  rintro ⟨k, v⟩ hc
  obtain ⟨hk, hv⟩ : k < 65536 ∧ v ≠ unlistedByte := h.2 _ hc
  have hkey : (BitVec.ofNat 16 k).toNat = k := (BitVec.toNat_ofNat k 16).trans (Nat.mod_eq_of_lt hk)
  have hm : memRead m (BitVec.ofNat 16 k) = v := memRead_of_mem h.1 (hkey.symm ▸ hc)
  have hm' : memRead m' (BitVec.ofNat 16 k) = v := (hread _).symm.trans hm
  simpa only [hkey, hm'] using mem_of_memRead_ne (hm'.symm ▸ hv : memRead m' (BitVec.ofNat 16 k) ≠ unlistedByte)

/-- Settles O50: the two lists have the same entries, each once and in the same order. -/
theorem canonicalMemoriesAreExtensional : Obligations.CanonicalMemoriesAreExtensional := by
  intro m m' h h' hread
  have nodup {l : Memory} (hl : Memory.wf l) : l.Nodup := hl.1.imp fun hlt heq => Nat.ne_of_lt hlt (congrArg Prod.fst heq)
  have hperm : m.Perm m' := (List.perm_ext_iff_of_nodup (nodup h) (nodup h')).2 fun c =>
    ⟨fun hc => subset_of_memRead_eq h hread hc, fun hc => subset_of_memRead_eq h' (fun a => (hread a).symm) hc⟩
  exact hperm.eq_of_pairwise (fun c d _ _ hcd hdc => absurd hdc (Nat.lt_asymm hcd)) h.1 h'.1

end Sys2Proof.Machine
